-- ==== Sys2Proof/Word.lean ====
section
/-! DEFINITION. The word types of the BTE: bytes, 32-bit words (register values, code points) and the
16-byte matrix. -/

namespace Sys2Proof

/-- An 8-bit unsigned value, `u8` of 00_scope.md R8. -/
abbrev Byte := BitVec 8

/-- A 32-bit unsigned value, `u32` of 00_scope.md R8: a register, a command word, a code point (R9). -/
abbrev Word := BitVec 32

/-- A 4×4 grid of bytes held row-major, as 00_scope.md R10 reshapes it: cell (i, j) is entry 4i + j. -/
abbrev ByteMatrix := Vector Byte 16

/-- The matrix of 16 zero bytes (10_state.md R48). -/
def ByteMatrix.zero : ByteMatrix := Vector.replicate 16 0

end Sys2Proof
end

