-- ==== Sys2Proof/Config.lean ====
section
/-! DEFINITION. What an implementation fixes: the message memory's size (00_scope.md R7) and the constant
identification value (10_state.md R23). The spec leaves no instruction result open, so there is no free value. -/

namespace Sys2Proof

/-- The implementation parameters of 00_scope.md R7. `BTE_BASE` is read by no rule (20_memory.md R60) and is
taken as 0. -/
structure Config where
  /-- `MEM_SIZE`: the size in bytes of the message memory. -/
  memSize : Nat
  deriving DecidableEq, Repr

/-- The values of `MEM_SIZE` that 00_scope.md R7 allows: a multiple of 4 from 256 to 2^24. -/
abbrev Config.Legal (c : Config) : Prop := c.memSize % 4 = 0 ∧ 256 ≤ c.memSize ∧ c.memSize ≤ 16777216

/-- The spec's reference configuration, `MEM_SIZE` = 65536 (00_scope.md R7). -/
def Config.reference : Config := { memSize := 65536 }

/-- The constant the ID register reads (10_state.md R23). -/
def Config.idValue : Word := 0x42544531

end Sys2Proof
end

