-- ==== Sys2Proof/Syntax.lean ====
section
/-! DEFINITION. The instructions of the BTE, one constructor per row of spec/opcode_table.json: the twelve
commands and ILLEGAL are words written to CMD (30_encoding.md R70, R72, R73); SRST, DONECLR, OVRCLR and CTRLWR are words
written to CTRL (30_encoding.md R77). -/

namespace Sys2Proof

/-- One constructor per row of the opcode table. A command takes its operands from the latch (30_encoding.md R71),
so only ILLEGAL and the CTRL words carry fields. -/
inductive Instr where
  | nop
  | keyset
  | bkgen
  | xorm
  | bxform
  | frame
  | hexenc
  | hexdec
  | txtenc
  | txtdec
  | encrypt
  | decrypt
  /-- A CMD word that is no assigned command (30_encoding.md R73), kept whole. -/
  | illegal (word : Word)
  /-- CTRL bit 1 = 1; every other bit is ignored. -/
  | srst
  /-- CTRL bits 2:1 = 10, with bit 3 (`ovrclr`) and bit 0 (`ie`). -/
  | doneclr (ovrclr ie : Bool)
  /-- CTRL bit 3 = 1, bit 1 = 0, with bit 2 (`doneclr`) and bit 0 (`ie`). -/
  | ovrclr (doneclr ie : Bool)
  /-- CTRL bit 1 = 0, with bit 3 (`ovrclr`), bit 2 (`doneclr`) and bit 0 (`ie`). -/
  | ctrlwr (ovrclr doneclr ie : Bool)
  deriving DecidableEq, Repr

end Sys2Proof
end

