-- ==== Sys2Proof/WellFormed.lean ====
section
/-! DEFINITION. Which terms of `Instr` stand for a word: every CMD word has exactly one well-formed term, and so has
every CTRL word up to its ignored bits. -/

namespace Sys2Proof

/-- Is the word an assigned command: RSV (bits 31:8) zero and OPC (bits 7:0) in 0x00..0x0B (30_encoding.md R70, R72)? -/
def assignedCommand (w : Word) : Bool :=
  w.extractLsb' 8 24 == 0 && decide ((w.extractLsb' 0 8).toNat ≤ 0x0B)

/-- `illegal` holds only unassigned words (30_encoding.md R73). The CTRL rows of the table overlap, so a CTRL word is
written with the first row that matches it, in the table's order: DONECLR, then OVRCLR, then CTRLWR. -/
def Instr.wellFormed : Instr → Bool
  | .nop | .keyset | .bkgen | .xorm | .bxform | .frame | .hexenc | .hexdec | .txtenc | .txtdec | .encrypt | .decrypt => true
  | .illegal w => !assignedCommand w
  | .srst => true
  | .doneclr _ _ => true
  | .ovrclr d _ => !d
  | .ctrlwr o d _ => !o && !d

end Sys2Proof
end

