-- ==== Sys2Proof/Decode.lean ====
section
/-! DEFINITION. The decoder of 30_encoding.md R75 and R77, total on every 32-bit word, and the encoder. A word's
meaning depends on the register it is written to, so the decoder takes the port. -/

namespace Sys2Proof

/-- The two registers whose written words are instructions: CMD (offset 0x0010) and CTRL (offset 0x0008). -/
inductive Port where
  | cmd
  | ctrl
  deriving DecidableEq, Repr

/-- Bits 7:0 of a command word (30_encoding.md R70). -/
def opcField (w : Word) : Byte := w.extractLsb' 0 8

/-- Bits 31:8 of a command word, reserved, must be 0 (30_encoding.md R70). -/
def rsvField (w : Word) : BitVec 24 := w.extractLsb' 8 24

/-- 30_encoding.md R75: every word that is no assigned command is `illegal`. -/
def decodeCmd (w : Word) : Instr :=
  if rsvField w ≠ 0 then .illegal w
  else match (opcField w).toNat with
    | 0x00 => .nop
    | 0x01 => .keyset
    | 0x02 => .bkgen
    | 0x03 => .xorm
    | 0x04 => .bxform
    | 0x05 => .frame
    | 0x06 => .hexenc
    | 0x07 => .hexdec
    | 0x08 => .txtenc
    | 0x09 => .txtdec
    | 0x0A => .encrypt
    | 0x0B => .decrypt
    | _ => .illegal w

/-- 30_encoding.md R77: SRST takes precedence, then the word is named by the first table row that matches it. -/
def decodeCtrl (w : Word) : Instr :=
  if w.getLsbD 1 then .srst
  else if w.getLsbD 2 then .doneclr (w.getLsbD 3) (w.getLsbD 0)
  else if w.getLsbD 3 then .ovrclr false (w.getLsbD 0)
  else .ctrlwr false false (w.getLsbD 0)

/-- The instruction a word written to a port stands for. -/
def decode : Port → Word → Instr
  | .cmd, w => decodeCmd w
  | .ctrl, w => decodeCtrl w

/-- The instruction whose bits the opcode table numbers as `w`. The table's CTRL rows share their words with CMD
rows, and this signature names no port, so the word is read as a CMD word (DESIGN CHOICE, log entry 4). -/
def decodeTableWord (nbits w : Nat) : Option Instr :=
  some (decode .cmd (BitVec.ofNat 32 (w % 2 ^ nbits)))

/-- The port an instruction's word is written to. -/
def Instr.port : Instr → Port
  | .nop | .keyset | .bkgen | .xorm | .bxform | .frame | .hexenc | .hexdec | .txtenc | .txtdec | .encrypt | .decrypt => .cmd
  | .illegal _ => .cmd
  | .srst | .doneclr _ _ | .ovrclr _ _ | .ctrlwr _ _ _ => .ctrl

/-- A CTRL word with bit 1 = 0: OVRCLR in bit 3, DONECLR in bit 2, IE in bit 0 (10_state.md R25). -/
def ctrlWord (ovrclr doneclr ie : Bool) : Word :=
  (0#28 ++ BitVec.ofBool ovrclr ++ BitVec.ofBool doneclr ++ 0#1 ++ BitVec.ofBool ie : BitVec (28 + 1 + 1 + 1 + 1))

/-- The word of an instruction, ignored bits 0 (30_encoding.md R72, R77). -/
def encode : Instr → Word
  | .nop => 0x00000000
  | .keyset => 0x00000001
  | .bkgen => 0x00000002
  | .xorm => 0x00000003
  | .bxform => 0x00000004
  | .frame => 0x00000005
  | .hexenc => 0x00000006
  | .hexdec => 0x00000007
  | .txtenc => 0x00000008
  | .txtdec => 0x00000009
  | .encrypt => 0x0000000A
  | .decrypt => 0x0000000B
  | .illegal w => w
  | .srst => 0x00000002
  | .doneclr o e => ctrlWord o true e
  | .ovrclr d e => ctrlWord true d e
  | .ctrlwr o d e => ctrlWord o d e

/-- The (match, mask) pair of an instruction's row in spec/opcode_table.json. -/
def Instr.tableRow : Instr → Word × Word
  | .nop => (0x00000000, 0xFFFFFFFF)
  | .keyset => (0x00000001, 0xFFFFFFFF)
  | .bkgen => (0x00000002, 0xFFFFFFFF)
  | .xorm => (0x00000003, 0xFFFFFFFF)
  | .bxform => (0x00000004, 0xFFFFFFFF)
  | .frame => (0x00000005, 0xFFFFFFFF)
  | .hexenc => (0x00000006, 0xFFFFFFFF)
  | .hexdec => (0x00000007, 0xFFFFFFFF)
  | .txtenc => (0x00000008, 0xFFFFFFFF)
  | .txtdec => (0x00000009, 0xFFFFFFFF)
  | .encrypt => (0x0000000A, 0xFFFFFFFF)
  | .decrypt => (0x0000000B, 0xFFFFFFFF)
  | .illegal _ => (0x00000000, 0x00000000)
  | .srst => (0x00000002, 0x00000002)
  | .doneclr _ _ => (0x00000004, 0x00000006)
  | .ovrclr _ _ => (0x00000008, 0x0000000A)
  | .ctrlwr _ _ _ => (0x00000000, 0x00000002)

end Sys2Proof
end

