-- ==== Sys2Proof/Machine/State.lean ====
section
/-! DEFINITION. The state of the BTE as plain data: everything 10_state.md R49 lists, the configuration constant, and
two fields of the model's own (the coming moves of the two agents, the words host reads returned). -/

namespace Sys2Proof.Machine

/-- The message memory MEM (20_memory.md R50, R53): the bytes that have a value, as (MEM offset, byte) pairs with strictly
rising offsets. An unlisted offset is unwritten: it has no value. -/
abbrev Memory := List Host.Cell

/-- The error codes of 60_exceptions.md R200. Codes 7..15 are reserved and never written, so they have no name. -/
inductive ErrCode where
  | noError
  | invalidKey
  | malformedInput
  | encodingError
  | noKey
  | illegalCommand
  | badRegion
  deriving DecidableEq, Repr

/-- The command latch `pend` of 10_state.md R35: the accepted command word and the operand registers as they stood at
its acceptance. -/
structure Latch where
  cmd     : Word
  srcAddr : Word
  srcLen  : Word
  auxAddr : Word
  dstAddr : Word
  blkIdx  : Word
  deriving DecidableEq, Repr

/-- One access of the host to the port: its width in bits, its port byte address and, for a write, its data. Only
32-bit aligned accesses are legal (10_state.md R47); the data of another width is never used. -/
inductive Access where
  | read  (bits : Nat) (addr : Word)
  | write (bits : Nat) (addr : Word) (data : Word)
  deriving DecidableEq, Repr

/-- One coming move (20_memory.md R62: a run is an interleaving of host accesses and completions). -/
inductive Event where
  /-- The host's next access. -/
  | host (access : Access)
  /-- The engine's turn: it completes the pending command, if there is one. -/
  | engine
  deriving DecidableEq, Repr

/-- The host-visible registers of 10_state.md R22. -/
inductive PortReg where
  | id
  | memsize
  | ctrl
  | status
  | cmd
  | srcAddr
  | srcLen
  | auxAddr
  | dstAddr
  | blkIdx
  | outLen
  | errPos
  | keypad (row : Fin 4)
  | keymat (row : Fin 4)
  | bkmat  (row : Fin 4)
  deriving DecidableEq, Repr

/-- The model's fault outcomes, those of 60_exceptions.md R208 and no other. -/
inductive Fault where
  /-- A command (44_control.md R182) or a host read (20_memory.md R53) reads a MEM byte that is unwritten. Raised by the engine's
  reads and by the MEM window. Safe: the chip goes on with a value no source fixes. -/
  | unwrittenRead
  /-- The host accesses the MEM window while STATUS.BUSY = 1 (70_reset_and_hazards.md R240). Raised by the MEM window. Safe: the chip
  may serve the access. -/
  | memWhileBusy
  /-- The port answers an illegal host access with a bus error (10_state.md R47, 60_exceptions.md R208). Raised by host accesses. Safe:
  the spec says the access has no effect, and the run stops there. -/
  | busError
  deriving DecidableEq, Repr

/-- Why an instruction has no meaning at a state. -/
inductive Refusal where
  /-- An instruction of the table without a meaning in the model. Raised by no arm of `exec`. Safe. -/
  | notModelled (mnemonic : String)
  /-- A command asked to complete while no command is pending. The engine has a step exactly when BUSY = 1
  (10_state.md R40), so `step` never asks for it. Raised by every command's meaning on a state with an empty latch. Safe. -/
  | noCommandPending
  deriving DecidableEq, Repr

/-- How a command's rule ends when it does not succeed: an error of 00_scope.md R13 with its element position, or a fault
of 44_control.md R182. -/
inductive Stop where
  | raise (e : ErrCode) (pos : Option Nat)
  | fault (f : Fault)
  deriving DecidableEq, Repr

/-- The whole state (10_state.md R49). STATUS.BUSY is the latch's valid bit (R35, R40), so it is stored once, as `pend`
being present. -/
structure State where
  /-- MEM_SIZE, a constant of the configuration: no step changes it. -/
  config : Config
  /-- CTRL.IE (R25). -/
  ie : Bool
  /-- The command latch; present exactly when STATUS.BUSY = 1 (R35, R40). -/
  pend : Option Latch
  /-- STATUS.DONE (R41). -/
  done : Bool
  /-- STATUS.KEY_VALID (R42). -/
  keyValid : Bool
  /-- STATUS.OVR (R43). -/
  ovr : Bool
  /-- STATUS.ERR (R44). -/
  err : ErrCode
  /-- STATUS.LAST_OP (R45). -/
  lastOp : Byte
  /-- SRC_ADDR (R28). -/
  srcAddr : Word
  /-- SRC_LEN (R29). -/
  srcLen : Word
  /-- AUX_ADDR (R30). -/
  auxAddr : Word
  /-- DST_ADDR (R31). -/
  dstAddr : Word
  /-- BLK_IDX (R32). -/
  blkIdx : Word
  /-- OUT_LEN (R33). -/
  outLen : Word
  /-- ERR_POS (R34). -/
  errPos : Word
  /-- KEYPAD (R36). -/
  keypad : ByteMatrix
  /-- KEYMAT (R37). -/
  keymat : ByteMatrix
  /-- BKMAT (R38). -/
  bkmat : ByteMatrix
  /-- MEM (20_memory.md R50, R53). -/
  mem : Memory
  /-- The model's own field: the moves to come, first one first (20_memory.md R62). -/
  events : List Event
  /-- The model's own field: the words host reads have returned, newest first. -/
  readback : List Word
  deriving DecidableEq, Repr

/-- A machine right after power-on reset with a given configuration (10_state.md R48, 70_reset_and_hazards.md R230). -/
def State.resetWith (c : Config) : State where
  config := c
  ie := false
  pend := none
  done := false
  keyValid := false
  ovr := false
  err := .noError
  lastOp := 0x00
  srcAddr := 0
  srcLen := 0
  auxAddr := 0
  dstAddr := 0
  blkIdx := 0
  outLen := 0
  errPos := 0xFFFFFFFF
  keypad := ByteMatrix.zero
  keymat := ByteMatrix.zero
  bkmat := ByteMatrix.zero
  mem := []
  events := []
  readback := []

/-- The machine right after power-on reset, with the spec's reference MEM_SIZE (DESIGN CHOICE, log entry 1). -/
def State.reset : State := State.resetWith Config.reference

end Sys2Proof.Machine
end

