-- ==== Sys2Proof/Machine/Ops.lean ====
section
/-! DEFINITION. The named operations: matrices (00_scope.md R10, R14), the message memory (00_scope.md R12, 20_memory.md), a command's
checks (00_scope.md R13), and the completion of a command with success or with an error (44_control.md R181, 60_exceptions.md
R204). An error's completion is the BTE's form of taking an exception; there is no return from one (60_exceptions.md R205, R206). -/

namespace Sys2Proof.Machine

/-- The outcome of a step of this machine. -/
abbrev Out := Host.Outcome State Fault Refusal

/-- What a command's rule computes: a result, or how it stops. -/
abbrev Checked (α : Type) := Except Stop α

/-! ### Bytes, words and matrices -/

/-- `lo8(v) = v mod 256` (00_scope.md R14). -/
def lo8 (v : Nat) : Byte := BitVec.ofNat 8 v

/-- `nblocks(n)` (00_scope.md R14): the empty input has one block. -/
def nblocks (n : Nat) : Nat := if n = 0 then 1 else (n + 15) / 16

/-- A 32-bit word from its four bytes, little-endian (20_memory.md R54). -/
def leWord (b0 b1 b2 b3 : Byte) : Word := (b3 ++ b2 ++ b1 ++ b0 : BitVec (8 + 8 + 8 + 8))

/-- The four bytes of a 32-bit word, little-endian (20_memory.md R54). -/
def leBytes (w : Word) : List Byte :=
  [w.extractLsb' 0 8, w.extractLsb' 8 8, w.extractLsb' 16 8, w.extractLsb' 24 8]

/-- Cell (i, j) of a matrix (00_scope.md R10). -/
def cell (m : ByteMatrix) (i j : Fin 4) : Byte := m[4 * i.val + j.val]

/-- The matrix whose cell (i, j) is `f i j` (00_scope.md R10). -/
def ofCells (f : Fin 4 → Fin 4 → Byte) : ByteMatrix :=
  Vector.ofFn fun k : Fin 16 => f ⟨k.val / 4, by omega⟩ ⟨k.val % 4, by omega⟩

/-- `toMatrix(s)`: the row-major reshape of a 16-byte sequence (00_scope.md R10). -/
def toMatrix (s : List Byte) : ByteMatrix := ofCells fun i j => s.getD (4 * i.val + j.val) 0

/-- `toBytes(M)`: the bytes of a matrix, row-major (00_scope.md R10). -/
def toBytes (m : ByteMatrix) : List Byte := m.toList

/-- Row i of a matrix as a host-visible word, column 0 in bits 7:0 (10_state.md R39). -/
def rowWord (m : ByteMatrix) (i : Fin 4) : Word := leWord (cell m i 0) (cell m i 1) (cell m i 2) (cell m i 3)

/-! ### The message memory -/

/-- The byte at a MEM offset, or nothing if it is unwritten (20_memory.md R53). -/
def Memory.read (m : Memory) (a : Nat) : Option Byte := (m.find? fun c => c.1 == a).map (·.2)

/-- The cells of a byte sequence stored from offset `a` on. -/
def cellsAt (a : Nat) : List Byte → Memory
  | [] => []
  | b :: bs => (a, b) :: cellsAt (a + 1) bs

/-- `MemWrite(a, len(bs), bs)` (00_scope.md R12). -/
def Memory.write (m : Memory) (a : Nat) (bs : List Byte) : Memory :=
  m.filter (fun c => decide (c.1 < a)) ++ cellsAt a bs ++ m.filter (fun c => decide (a + bs.length ≤ c.1))

/-- The `n` bytes from `a` on become unwritten (44_control.md R184). -/
def Memory.forget (m : Memory) (a n : Nat) : Memory := m.filter fun c => decide (c.1 < a) || decide (a + n ≤ c.1)

/-- The canonical form: offsets strictly rising. (An unlisted offset has no value, so no entry can equal it.) -/
abbrev Memory.wf (m : Memory) : Prop := m.Pairwise fun c d => c.1 < d.1

/-- Every listed byte lies inside MEM (20_memory.md R50). -/
abbrev Memory.within (m : Memory) (memSize : Nat) : Prop := ∀ c ∈ m, c.1 < memSize

/-- `MemRead(a, n)` (00_scope.md R12), nothing if one of the bytes is unwritten. -/
def Memory.readBytes (m : Memory) (a : Nat) : Nat → Option (List Byte)
  | 0 => some []
  | n + 1 =>
    match m.read a, Memory.readBytes m (a + 1) n with
    | some b, some bs => some (b :: bs)
    | _, _ => none

/-- The little-endian word at `a` (20_memory.md R51, R54), nothing if one of its bytes is unwritten. -/
def Memory.readWord (m : Memory) (a : Nat) : Option Word :=
  match m.read a, m.read (a + 1), m.read (a + 2), m.read (a + 3) with
  | some b0, some b1, some b2, some b3 => some (leWord b0 b1 b2 b3)
  | _, _, _, _ => none

/-- `CpRead(a, n)` (00_scope.md R12), nothing if one of the bytes is unwritten. -/
def Memory.readText (m : Memory) (a : Nat) : Nat → Option (List Word)
  | 0 => some []
  | n + 1 =>
    match m.readWord a, Memory.readText m (a + 4) n with
    | some w, some ws => some (w :: ws)
    | _, _ => none

/-- The bytes of a text in memory: one little-endian word per character (00_scope.md R12). -/
def textBytes (t : List Word) : List Byte := t.flatMap leBytes

/-! ### A command's checks and effects -/

/-- `if not ok: raise e` (00_scope.md R13). -/
def check (ok : Bool) (e : ErrCode) : Checked Unit := if ok then .ok () else .error (.raise e none)

/-- A source read: an unwritten byte is the fault of 44_control.md R182. -/
def orFault {α : Type} : Option α → Checked α
  | some x => .ok x
  | none => .error (.fault .unwrittenRead)

/-- `MemRead` in a command's pseudocode (00_scope.md R12, 44_control.md R182). -/
def memRead (s : State) (a n : Nat) : Checked (List Byte) := orFault (s.mem.readBytes a n)

/-- `CpRead` in a command's pseudocode (00_scope.md R12, 44_control.md R182). -/
def cpRead (s : State) (a n : Nat) : Checked (List Word) := orFault (s.mem.readText a n)

/-- `if STATUS.KEY_VALID = 0: raise NO_KEY` (10_state.md R42). -/
def requireKey (s : State) : Checked Unit := check s.keyValid .noKey

/-- `MemWrite(a, n, bs)` with `OUT_LEN <- n`, n the number of bytes (10_state.md R33). -/
def State.storeBytes (s : State) (a : Nat) (bs : List Byte) : State :=
  { s with mem := s.mem.write a bs, outLen := BitVec.ofNat 32 bs.length }

/-- `CpWrite(a, t)` with `OUT_LEN <- len(t)`, in characters (10_state.md R33). -/
def State.storeText (s : State) (a : Nat) (t : List Word) : State :=
  { s with mem := s.mem.write a (textBytes t), outLen := BitVec.ofNat 32 t.length }

/-! ### Completion -/

/-- The value ERR_POS holds when there is no position (10_state.md R34). -/
def noPos : Word := 0xFFFFFFFF

/-- The fields every completion writes (44_control.md R181, 10_state.md R41, R44, R45). -/
def State.complete (s : State) (p : Latch) (e : ErrCode) (pos : Word) : State :=
  { s with err := e, errPos := pos, lastOp := opcField p.cmd, pend := none, done := true }

/-- The successful completion: every write the rule made stands (44_control.md R181, case ok). -/
def State.succeed (s : State) (p : Latch) : State := s.complete p .noError noPos

/-- The completion with an error, the BTE's form of taking an exception (60_exceptions.md R204): only ERR, ERR_POS, OUT_LEN,
LAST_OP, BUSY and DONE change. -/
def State.raiseError (s : State) (p : Latch) (e : ErrCode) (pos : Option Nat) : State :=
  { s with outLen := 0 }.complete p e (match pos with | some k => BitVec.ofNat 32 k | none => noPos)

/-- The engine step on the pending command (44_control.md R181): `rule` is the command's pseudocode, which answers the
state with its writes made, or how it stops. -/
def runCommand (rule : Latch → State → Checked State) (s : State) : Out :=
  match s.pend with
  | none => .refused .noCommandPending
  | some p =>
    match rule p s with
    | .ok t => .next (t.succeed p)
    | .error (.raise e pos) => .next (s.raiseError p e pos)
    | .error (.fault f) => .fault f

end Sys2Proof.Machine
end

