-- ==== Sys2Proof/Machine/Flags.lean ====
section
/-! DEFINITION. The status flags: STATUS and its fields (10_state.md R26), the error codes (60_exceptions.md R200), and the interrupt
line (60_exceptions.md R210). -/

namespace Sys2Proof.Machine

/-- The 4-bit code of an error (60_exceptions.md R200). -/
def errBits : ErrCode → BitVec 4
  | .noError => 0
  | .invalidKey => 1
  | .malformedInput => 2
  | .encodingError => 3
  | .noKey => 4
  | .illegalCommand => 5
  | .badRegion => 6

/-- STATUS.BUSY: a command is pending in the latch (10_state.md R35, R40). -/
def State.busy (s : State) : Bool := s.pend.isSome

/-- The STATUS register as the host reads it (10_state.md R26): bits 31:16 zero, LAST_OP 15:8, ERR 7:4, OVR 3, KEY_VALID 2,
DONE 1, BUSY 0. -/
def State.statusWord (s : State) : Word :=
  (0#16 ++ s.lastOp ++ errBits s.err ++ BitVec.ofBool s.ovr ++ BitVec.ofBool s.keyValid ++ BitVec.ofBool s.done
    ++ BitVec.ofBool s.busy : BitVec (16 + 8 + 4 + 1 + 1 + 1 + 1))

/-- The CTRL register as the host reads it: `zext_32(IE)` (10_state.md R25). -/
def State.ctrlWordRead (s : State) : Word := (0#31 ++ BitVec.ofBool s.ie : BitVec (31 + 1))

/-- The completion interrupt line (10_state.md R46, 60_exceptions.md R210). -/
def State.irq (s : State) : Bool := s.ie && s.done

end Sys2Proof.Machine
end

