-- ==== Sys2Proof/Machine/Operands.lean ====
section
/-! DEFINITION. The operands of the commands: the source and destination regions of 30_encoding.md R74, and the
region checks of 20_memory.md R56 and R57. -/

namespace Sys2Proof.Machine

/-- A region (address, size in bytes, alignment) of 20_memory.md R56. -/
structure Region where
  addr  : Nat
  size  : Nat
  align : Nat
  deriving DecidableEq, Repr

/-- A command's source regions and its destination region, if it has one (30_encoding.md R74). -/
structure Regions where
  srcs : List Region
  dst  : Option Region
  deriving DecidableEq, Repr

/-- `valid(a, nbytes, align)` of 20_memory.md R56, on unbounded integers. -/
abbrev regionValid (memSize a nbytes align : Nat) : Prop := nbytes = 0 ∨ (a + nbytes ≤ memSize ∧ a % align = 0)

/-- The overlap of two regions (20_memory.md R57). -/
abbrev regionsOverlap (a n b m : Nat) : Prop := 0 < n ∧ 0 < m ∧ a < b + m ∧ b < a + n

/-- A byte region (20_memory.md R55). -/
def byteRegion (a : Word) (n : Nat) : Region := { addr := a.toNat, size := n, align := 1 }

/-- A text region of n characters (20_memory.md R55). -/
def textRegion (a : Word) (n : Nat) : Region := { addr := a.toNat, size := 4 * n, align := 4 }

/-- The table of 30_encoding.md R74. The rows that are no command of that table have no region. -/
def operandRegions (i : Instr) (p : Latch) : Regions :=
  let n := p.srcLen.toNat
  match i with
  | .nop => { srcs := [], dst := none }
  | .keyset => { srcs := [textRegion p.srcAddr n], dst := none }
  | .bkgen => { srcs := [], dst := none }
  | .xorm => { srcs := [byteRegion p.srcAddr 16, byteRegion p.auxAddr 16], dst := some (byteRegion p.dstAddr 16) }
  | .bxform => { srcs := [byteRegion p.srcAddr 16], dst := some (byteRegion p.dstAddr 16) }
  | .frame => { srcs := [byteRegion p.srcAddr n], dst := some (byteRegion p.dstAddr (16 * nblocks n)) }
  | .hexenc => { srcs := [byteRegion p.srcAddr n], dst := some (textRegion p.dstAddr (2 * n)) }
  | .hexdec => { srcs := [textRegion p.srcAddr n], dst := some (byteRegion p.dstAddr (n / 2)) }
  | .txtenc => { srcs := [textRegion p.srcAddr n], dst := some (byteRegion p.dstAddr n) }
  | .txtdec => { srcs := [byteRegion p.srcAddr n], dst := some (textRegion p.dstAddr n) }
  | .encrypt => { srcs := [textRegion p.srcAddr n], dst := some (textRegion p.dstAddr (32 * nblocks n)) }
  | .decrypt => { srcs := [textRegion p.srcAddr n], dst := some (textRegion p.dstAddr (n / 2)) }
  | .illegal _ | .srst | .doneclr _ _ | .ovrclr _ _ | .ctrlwr _ _ _ => { srcs := [], dst := none }

/-- Is a region valid (20_memory.md R56)? -/
def Region.valid (memSize : Nat) (r : Region) : Bool := decide (regionValid memSize r.addr r.size r.align)

/-- Do two regions overlap (20_memory.md R57)? -/
def Region.overlaps (r q : Region) : Bool := decide (regionsOverlap r.addr r.size q.addr q.size)

/-- Do the regions pass 20_memory.md R56 and R57? Every failed check raises the same BAD_REGION without a position, so the
order of 60_exceptions.md R202 item 3 cannot be seen. -/
def Regions.ok (memSize : Nat) (r : Regions) : Bool :=
  r.srcs.all (Region.valid memSize) &&
    match r.dst with
    | none => true
    | some d => d.valid memSize && r.srcs.all (fun q => !d.overlaps q)

/-- The region checks at the head of a command's pseudocode. -/
def checkRegions (i : Instr) (p : Latch) (s : State) : Checked Unit :=
  check ((operandRegions i p).ok s.config.memSize) .badRegion

end Sys2Proof.Machine
end

