-- ==== Sys2Proof/Machine/Control.lean ====
section
/-! DEFINITION. The command life cycle and the control operations: acceptance, NOP, illegal commands, and the CTRL
writes SRST, DONECLR, OVRCLR and CTRLWR (44_control.md). -/

namespace Sys2Proof.Machine

/-- The latch that a CMD write of `v` fills: `v` and the operand registers as they stand (10_state.md R35). -/
def State.latchOf (s : State) (v : Word) : Latch :=
  { cmd := v, srcAddr := s.srcAddr, srcLen := s.srcLen, auxAddr := s.auxAddr, dstAddr := s.dstAddr, blkIdx := s.blkIdx }

/-- An idle engine takes the command `v` (44_control.md R180, the branch BUSY = 0). -/
def State.accept (s : State) (v : Word) : State := { s with pend := some (s.latchOf v), done := false }

/-- A host write of `v` to CMD (44_control.md R180). -/
def writeCmd (s : State) (v : Word) : State := if s.busy then { s with ovr := true } else s.accept v

/-- NOP's pseudocode (44_control.md R187). -/
def nopRule (_ : Latch) (s : State) : Checked State := .ok { s with outLen := 0 }

/-- An illegal command word (44_control.md R188). -/
def illegalRule (_ : Latch) (_ : State) : Checked State := .error (.raise .illegalCommand none)

/-- NOP (44_control.md R187). -/
def execNop (s : State) : Out := runCommand nopRule s

/-- ILLEGAL (44_control.md R188). LAST_OP takes the OPC field of the latched word (10_state.md R45). -/
def execIllegal (_ : Word) (s : State) : Out := runCommand illegalRule s

/-- The destination region that an abort of the pending command leaves unwritten (44_control.md R184): the region of
30_encoding.md R74, or none if the word is not valid or its regions fail 20_memory.md R56, R57. -/
def abortRegion (s : State) : Option Region :=
  match s.pend with
  | none => none
  | some p =>
    let r := operandRegions (decodeCmd p.cmd) p
    if r.ok s.config.memSize then r.dst else none

/-- MEM after a soft reset (44_control.md R184, 70_reset_and_hazards.md R231). -/
def memAfterReset (s : State) : Memory :=
  match abortRegion s with
  | none => s.mem
  | some d => s.mem.forget d.addr d.size

/-- The soft reset (44_control.md R184): every register at its value of 10_state.md R48, an aborted destination unwritten.
The host's coming accesses and what it has read are outside the BTE and stay. -/
def softReset (s : State) : State :=
  { State.resetWith s.config with mem := memAfterReset s, events := s.events, readback := s.readback }

/-- A CTRL write with bit 1 = 0 (44_control.md R183). -/
def writeCtrl (s : State) (ovrclr doneclr ie : Bool) : State :=
  { s with ie := ie, done := s.done && !doneclr, ovr := s.ovr && !ovrclr }

/-- SRST (44_control.md R184). -/
def execSrst (s : State) : Out := .next (softReset s)

/-- DONECLR (44_control.md R185). -/
def execDoneclr (ovrclr ie : Bool) (s : State) : Out := .next (writeCtrl s ovrclr true ie)

/-- OVRCLR (44_control.md R186). -/
def execOvrclr (doneclr ie : Bool) (s : State) : Out := .next (writeCtrl s true doneclr ie)

/-- CTRLWR (44_control.md R183). -/
def execCtrlwr (ovrclr doneclr ie : Bool) (s : State) : Out := .next (writeCtrl s ovrclr doneclr ie)

end Sys2Proof.Machine
end

