-- ==== Sys2Proof/Machine/Framing.lean ====
section
/-! DEFINITION. Framing: the command FRAME (41_framing.md). -/

namespace Sys2Proof.Machine

/-- The whole 16-byte chunks of a byte sequence, in order (41_framing.md R121, 42_transform.md R145). -/
def wholeBlocks (s : List Byte) : List (List Byte) := (List.range (s.length / 16)).map fun b => (s.drop (16 * b)).take 16

/-- `frame(s)` (41_framing.md R121): a short last chunk, or the empty input, gets the delimiter 0xFF and zeros. -/
def frameBlocks (s : List Byte) : List (List Byte) :=
  if s.length % 16 ≠ 0 ∨ s.length = 0 then
    wholeBlocks s ++ [s.drop (16 * (s.length / 16)) ++ [0xFF] ++ List.replicate (15 - s.length % 16) 0x00]
  else wholeBlocks s

/-- FRAME's pseudocode (41_framing.md R120). -/
def frameRule (p : Latch) (s : State) : Checked State := do
  checkRegions .frame p s
  let b ← memRead s p.srcAddr.toNat p.srcLen.toNat
  .ok (s.storeBytes p.dstAddr.toNat (frameBlocks b).flatten)

/-- FRAME (41_framing.md R120). -/
def execFrame (s : State) : Out := runCommand frameRule s

end Sys2Proof.Machine
end

