-- ==== Sys2Proof/Machine/Codecs.lean ====
section
/-! DEFINITION. The codec functions and the commands TXTENC, TXTDEC, HEXENC and HEXDEC (43_codecs.md). -/

namespace Sys2Proof.Machine

/-- `textToBytes(t)` (43_codecs.md R161): the first character above 255 is an error at its index. -/
def textToBytes (t : List Word) : Checked (List Byte) :=
  match t.findIdx? fun c => decide (255 < c.toNat) with
  | some k => .error (.raise .encodingError (some k))
  | none => .ok (t.map fun c => lo8 c.toNat)

/-- `bytesToText(s)` (43_codecs.md R165): the bytes before the first 0xFF, each zero-extended. -/
def bytesToText (s : List Byte) : List Word := (s.takeWhile (· != 0xFF)).map fun b => b.setWidth 32

/-- `hexdigit(d)` (00_scope.md R14), lower case. -/
def hexDigit (d : Nat) : Word := if d ≤ 9 then BitVec.ofNat 32 (0x30 + d) else BitVec.ofNat 32 (0x61 + d - 10)

/-- `hexval(c)` (00_scope.md R14, 43_codecs.md R174), nothing for a non-hex character. -/
def hexVal (c : Word) : Option Nat :=
  let v := c.toNat
  if 0x30 ≤ v ∧ v ≤ 0x39 then some (v - 0x30)
  else if 0x61 ≤ v ∧ v ≤ 0x66 then some (v - 0x61 + 10)
  else if 0x41 ≤ v ∧ v ≤ 0x46 then some (v - 0x41 + 10)
  else none

/-- `hexEncode(s)` (43_codecs.md R169, R170): high nibble first. -/
def hexEncode (s : List Byte) : List Word := s.flatMap fun b => [hexDigit (b.toNat / 16), hexDigit (b.toNat % 16)]

/-- The bytes of the hex pairs of a text whose characters are all hex digits (43_codecs.md R173). -/
def hexPairs : List Word → List Byte
  | h :: l :: rest => lo8 ((hexVal h).getD 0 * 16 + (hexVal l).getD 0) :: hexPairs rest
  | _ => []

/-- `hexDecode(t)` (43_codecs.md R173): the length is checked before the characters. -/
def hexDecode (t : List Word) : Checked (List Byte) :=
  if t.length % 2 = 1 then .error (.raise .malformedInput none)
  else match t.findIdx? fun c => (hexVal c).isNone with
    | some k => .error (.raise .malformedInput (some k))
    | none => .ok (hexPairs t)

/-- TXTENC's pseudocode (43_codecs.md R160). -/
def txtencRule (p : Latch) (s : State) : Checked State := do
  checkRegions .txtenc p s
  let t ← cpRead s p.srcAddr.toNat p.srcLen.toNat
  let b ← textToBytes t
  .ok (s.storeBytes p.dstAddr.toNat b)

/-- TXTDEC's pseudocode (43_codecs.md R164). -/
def txtdecRule (p : Latch) (s : State) : Checked State := do
  checkRegions .txtdec p s
  let b ← memRead s p.srcAddr.toNat p.srcLen.toNat
  .ok (s.storeText p.dstAddr.toNat (bytesToText b))

/-- HEXENC's pseudocode (43_codecs.md R168). -/
def hexencRule (p : Latch) (s : State) : Checked State := do
  checkRegions .hexenc p s
  let b ← memRead s p.srcAddr.toNat p.srcLen.toNat
  .ok (s.storeText p.dstAddr.toNat (hexEncode b))

/-- HEXDEC's pseudocode (43_codecs.md R172). -/
def hexdecRule (p : Latch) (s : State) : Checked State := do
  checkRegions .hexdec p s
  let t ← cpRead s p.srcAddr.toNat p.srcLen.toNat
  let b ← hexDecode t
  .ok (s.storeBytes p.dstAddr.toNat b)

/-- TXTENC (43_codecs.md R160). -/
def execTxtenc (s : State) : Out := runCommand txtencRule s

/-- TXTDEC (43_codecs.md R164). -/
def execTxtdec (s : State) : Out := runCommand txtdecRule s

/-- HEXENC (43_codecs.md R168). -/
def execHexenc (s : State) : Out := runCommand hexencRule s

/-- HEXDEC (43_codecs.md R172). -/
def execHexdec (s : State) : Out := runCommand hexdecRule s

end Sys2Proof.Machine
end

