-- ==== Sys2Proof/Machine/KeySetup.lean ====
section
/-! DEFINITION. Key setup: the commands KEYSET and BKGEN (40_key_setup.md). -/

namespace Sys2Proof.Machine

/-- `pad16(kb)` for a non-empty key (40_key_setup.md R102): tiled, then cut to 16. -/
def pad16 (kb : List Byte) : ByteMatrix := Vector.ofFn fun k : Fin 16 => kb.getD (k.val % kb.length) 0

/-- `baseKey(P)` (40_key_setup.md R103): each cell times its transposed cell, modulo 256. -/
def baseKey (pad : ByteMatrix) : ByteMatrix := ofCells fun i j => cell pad i j * cell pad j i

/-- `blockKey(K, idx)` (40_key_setup.md R108, R110). -/
def blockKey (k : ByteMatrix) (idx : Nat) : ByteMatrix := ofCells fun i j => cell k i j ^^^ lo8 idx

/-- KEYSET's pseudocode (40_key_setup.md R100). -/
def keysetRule (p : Latch) (s : State) : Checked State := do
  checkRegions .keyset p s
  check (p.srcLen != 0) .invalidKey
  let t ← cpRead s p.srcAddr.toNat p.srcLen.toNat
  let kb ← textToBytes t
  .ok { s with keypad := pad16 kb, keymat := baseKey (pad16 kb), keyValid := true, outLen := 0 }

/-- BKGEN's pseudocode (40_key_setup.md R108). -/
def bkgenRule (p : Latch) (s : State) : Checked State := do
  requireKey s
  .ok { s with bkmat := blockKey s.keymat p.blkIdx.toNat, outLen := 0 }

/-- KEYSET (40_key_setup.md R100). -/
def execKeyset (s : State) : Out := runCommand keysetRule s

/-- BKGEN (40_key_setup.md R108). -/
def execBkgen (s : State) : Out := runCommand bkgenRule s

end Sys2Proof.Machine
end

