-- ==== Sys2Proof/Machine/Transform.lean ====
section
/-! DEFINITION. The transform: the commands XORM, BXFORM, ENCRYPT and DECRYPT (42_transform.md). -/

namespace Sys2Proof.Machine

/-- `xorM(A, B)` (42_transform.md R131). -/
def xorM (a b : ByteMatrix) : ByteMatrix := ofCells fun i j => cell a i j ^^^ cell b i j

/-- One block combined with the block key of its index (42_transform.md R136). -/
def transformBlock (k : ByteMatrix) (block : List Byte) (idx : Nat) : List Byte :=
  toBytes (xorM (toMatrix block) (blockKey k idx))

/-- The blocks of a message combined with the block keys 0, 1, 2, … in order and concatenated (42_transform.md R140, R145). -/
def transformBlocks (k : ByteMatrix) (blocks : List (List Byte)) : List Byte :=
  blocks.zipIdx.flatMap fun (block, b) => transformBlock k block b

/-- XORM's pseudocode (42_transform.md R130). -/
def xormRule (p : Latch) (s : State) : Checked State := do
  checkRegions .xorm p s
  let a ← memRead s p.srcAddr.toNat 16
  let b ← memRead s p.auxAddr.toNat 16
  .ok (s.storeBytes p.dstAddr.toNat (toBytes (xorM (toMatrix a) (toMatrix b))))

/-- BXFORM's pseudocode (42_transform.md R136). -/
def bxformRule (p : Latch) (s : State) : Checked State := do
  requireKey s
  checkRegions .bxform p s
  let x ← memRead s p.srcAddr.toNat 16
  .ok { s.storeBytes p.dstAddr.toNat (transformBlock s.keymat x p.blkIdx.toNat) with
        bkmat := blockKey s.keymat p.blkIdx.toNat, blkIdx := p.blkIdx + 1 }

/-- ENCRYPT's pseudocode (42_transform.md R140). -/
def encryptRule (p : Latch) (s : State) : Checked State := do
  requireKey s
  checkRegions .encrypt p s
  let t ← cpRead s p.srcAddr.toNat p.srcLen.toNat
  let plain ← textToBytes t
  .ok (s.storeText p.dstAddr.toNat (hexEncode (transformBlocks s.keymat (frameBlocks plain))))

/-- DECRYPT's pseudocode (42_transform.md R145). -/
def decryptRule (p : Latch) (s : State) : Checked State := do
  requireKey s
  checkRegions .decrypt p s
  let t ← cpRead s p.srcAddr.toNat p.srcLen.toNat
  let c ← hexDecode t
  let m := p.srcLen.toNat / 2
  check (m != 0 && m % 16 == 0) .malformedInput
  .ok (s.storeText p.dstAddr.toNat (bytesToText (transformBlocks s.keymat (wholeBlocks c))))

/-- XORM (42_transform.md R130). -/
def execXorm (s : State) : Out := runCommand xormRule s

/-- BXFORM (42_transform.md R136). -/
def execBxform (s : State) : Out := runCommand bxformRule s

/-- ENCRYPT (42_transform.md R140). -/
def execEncrypt (s : State) : Out := runCommand encryptRule s

/-- DECRYPT (42_transform.md R145). -/
def execDecrypt (s : State) : Out := runCommand decryptRule s

end Sys2Proof.Machine
end

