-- ==== Sys2Proof/Machine/Dispatch.lean ====
section
/-! DEFINITION. One arm per instruction: a direct call of its meaning. -/

namespace Sys2Proof.Machine

def exec (i : Instr) (s : State) : Host.Outcome State Fault Refusal :=
  match i with
  | .nop => Sys2Proof.Machine.execNop s
  | .keyset => Sys2Proof.Machine.execKeyset s
  | .bkgen => Sys2Proof.Machine.execBkgen s
  | .xorm => Sys2Proof.Machine.execXorm s
  | .bxform => Sys2Proof.Machine.execBxform s
  | .frame => Sys2Proof.Machine.execFrame s
  | .hexenc => Sys2Proof.Machine.execHexenc s
  | .hexdec => Sys2Proof.Machine.execHexdec s
  | .txtenc => Sys2Proof.Machine.execTxtenc s
  | .txtdec => Sys2Proof.Machine.execTxtdec s
  | .encrypt => Sys2Proof.Machine.execEncrypt s
  | .decrypt => Sys2Proof.Machine.execDecrypt s
  | .illegal word => Sys2Proof.Machine.execIllegal word s
  | .srst => Sys2Proof.Machine.execSrst s
  | .doneclr ovrclr ie => Sys2Proof.Machine.execDoneclr ovrclr ie s
  | .ovrclr doneclr ie => Sys2Proof.Machine.execOvrclr doneclr ie s
  | .ctrlwr ovrclr doneclr ie => Sys2Proof.Machine.execCtrlwr ovrclr doneclr ie s

end Sys2Proof.Machine
end

