-- ==== Sys2Proof/Machine/Port.lean ====
section
/-! DEFINITION. The host port: the register map, register and MEM window accesses (10_state.md R22 to R47, 20_memory.md R51),
and which move comes next (20_memory.md R62). -/

namespace Sys2Proof.Machine

/-- What the next move is: an instruction run at a state, or an outcome the port itself answers. -/
inductive Action where
  | run (i : Instr) (s : State)
  | answer (o : Out)

/-- The register at a port offset below 0x10000 (10_state.md R22); nothing at the unmapped offsets. -/
def regAt : Nat → Option PortReg
  | 0x0000 => some .id
  | 0x0004 => some .memsize
  | 0x0008 => some .ctrl
  | 0x000C => some .status
  | 0x0010 => some .cmd
  | 0x0014 => some .srcAddr
  | 0x0018 => some .srcLen
  | 0x001C => some .auxAddr
  | 0x0020 => some .dstAddr
  | 0x0024 => some .blkIdx
  | 0x0028 => some .outLen
  | 0x002C => some .errPos
  | 0x0030 => some (.keypad 0)
  | 0x0034 => some (.keypad 1)
  | 0x0038 => some (.keypad 2)
  | 0x003C => some (.keypad 3)
  | 0x0040 => some (.keymat 0)
  | 0x0044 => some (.keymat 1)
  | 0x0048 => some (.keymat 2)
  | 0x004C => some (.keymat 3)
  | 0x0050 => some (.bkmat 0)
  | 0x0054 => some (.bkmat 1)
  | 0x0058 => some (.bkmat 2)
  | 0x005C => some (.bkmat 3)
  | _ => none

/-- What a host read of a register returns (10_state.md R23 to R39, R47 item 4). -/
def readReg (s : State) : PortReg → Word
  | .id => Config.idValue
  | .memsize => BitVec.ofNat 32 s.config.memSize
  | .ctrl => s.ctrlWordRead
  | .status => s.statusWord
  | .cmd => 0
  | .srcAddr => s.srcAddr
  | .srcLen => s.srcLen
  | .auxAddr => s.auxAddr
  | .dstAddr => s.dstAddr
  | .blkIdx => s.blkIdx
  | .outLen => s.outLen
  | .errPos => s.errPos
  | .keypad i => rowWord s.keypad i
  | .keymat i => rowWord s.keymat i
  | .bkmat i => rowWord s.bkmat i

/-- What a host write of `v` to a register does (10_state.md R22, R47 item 3): CMD is 44_control.md R180, a CTRL word is an
instruction (44_control.md R183), the operand registers store, the read-only registers ignore the write. -/
def writeReg (s : State) (r : PortReg) (v : Word) : Action :=
  match r with
  | .ctrl => .run (decode .ctrl v) s
  | .cmd => .answer (.next (writeCmd s v))
  | .srcAddr => .answer (.next { s with srcAddr := v })
  | .srcLen => .answer (.next { s with srcLen := v })
  | .auxAddr => .answer (.next { s with auxAddr := v })
  | .dstAddr => .answer (.next { s with dstAddr := v })
  | .blkIdx => .answer (.next { s with blkIdx := v })
  | .id | .memsize | .status | .outLen | .errPos | .keypad _ | .keymat _ | .bkmat _ => .answer (.next s)

/-- What a port address reaches (10_state.md R22, R47): nothing legal, a register, or the MEM word at an offset. -/
inductive Target where
  | nowhere
  | reg (r : PortReg)
  | mem (offset : Nat)
  deriving DecidableEq, Repr

/-- The target of an access of a width to an address (10_state.md R47 items 1, 2 and 6, 20_memory.md R51). -/
def targetOf (s : State) (bits : Nat) (addr : Word) : Target :=
  let a := addr.toNat
  if bits ≠ 32 ∨ a % 4 ≠ 0 then .nowhere
  else if a < 0x10000 then
    match regAt a with
    | none => .nowhere
    | some r => .reg r
  else if a - 0x10000 + 4 ≤ s.config.memSize then .mem (a - 0x10000)
  else .nowhere

/-- A host read returns a word and changes nothing else (20_memory.md R59). -/
def State.returned (s : State) (w : Word) : State := { s with readback := w :: s.readback }

/-- A host read of the MEM word at an offset (20_memory.md R51, R53, 70_reset_and_hazards.md R240). -/
def readWindow (s : State) (a : Nat) : Out :=
  if s.busy then .fault .memWhileBusy
  else match s.mem.readWord a with
    | none => .fault .unwrittenRead
    | some w => .next (s.returned w)

/-- A host write of the MEM word at an offset (20_memory.md R51, 70_reset_and_hazards.md R240). -/
def writeWindow (s : State) (a : Nat) (v : Word) : Out :=
  if s.busy then .fault .memWhileBusy else .next { s with mem := s.mem.write a (leBytes v) }

/-- One host access (10_state.md R47). -/
def hostAccess (s : State) : Access → Action
  | .read bits addr =>
    match targetOf s bits addr with
    | .nowhere => .answer (.fault .busError)
    | .reg r => .answer (.next (s.returned (readReg s r)))
    | .mem a => .answer (readWindow s a)
  | .write bits addr v =>
    match targetOf s bits addr with
    | .nowhere => .answer (.fault .busError)
    | .reg r => writeReg s r v
    | .mem a => .answer (writeWindow s a v)

/-- The engine's turn (44_control.md R181): the pending command, decoded from the latch (30_encoding.md R75), or nothing when
the engine is idle (60_exceptions.md R226). -/
def engineTurn (s : State) : Action :=
  match s.pend with
  | some p => .run (decode .cmd p.cmd) s
  | none => .answer (.next s)

/-- The next move (20_memory.md R62): the first of the coming events, or the engine's turn when none is left, so that a
pending command completes (44_control.md R189). -/
def nextMove (s : State) : Action :=
  match s.events with
  | [] => engineTurn s
  | .engine :: rest => engineTurn { s with events := rest }
  | .host access :: rest => hostAccess { s with events := rest } access

/-- The state in which the engine's turn comes next and the latch holds the command `v`, as a CMD write of `v` that is
accepted leaves it (44_control.md R180). -/
def State.withCommand (s : State) (v : Word) : State := { s.accept v with events := .engine :: s.events }

end Sys2Proof.Machine
end

