-- ==== Sys2Proof/Machine/Step.lean ====
section
/-! DEFINITION. The step: the next move of the two agents (20_memory.md R62), an instruction run by `exec`. -/

namespace Sys2Proof.Machine

/-- A move carried out. -/
def perform : Action → Out
  | .run i s => exec i s
  | .answer o => o

/-- One atomic step: a host access or a completion. -/
def step (s : State) : Host.Outcome State Fault Refusal := perform (nextMove s)

/-- The state in which the next step runs the command whose bits are `w`: the latch holds it, and the engine moves next
(log entry 17). -/
def State.withFetchWord (s : State) (nbits w : Nat) : State := s.withCommand (BitVec.ofNat 32 (w % 2 ^ nbits))

end Sys2Proof.Machine
end

