-- ==== Sys2Proof/Safety.lean ====
section
/-! DEFINITION. The terms the claims use: what a memory holds, how a completion leaves the state, when a command's
source is written, and the invariant every step keeps. -/

namespace Sys2Proof.Machine

/-- The state a step goes on with, if it goes on. -/
def nextState? : Out → Option State
  | .next s => some s
  | .fault _ => none
  | .refused _ => none

/-- MEM holds the bytes `f 0`, …, `f (n - 1)` from offset `a` on. -/
abbrev HoldsBytes (m : Memory) (a n : Nat) (f : Nat → Byte) : Prop := ∀ k, k < n → m.read (a + k) = some (f k)

/-- MEM holds the characters `f 0`, …, `f (n - 1)` from offset `a` on, one 32-bit word each (00_scope.md R12). -/
abbrev HoldsText (m : Memory) (a n : Nat) (f : Nat → Word) : Prop := ∀ k, k < n → m.readWord (a + 4 * k) = some (f k)

/-- Outside the `n` bytes from `a` on, the second memory reads as the first. -/
def SameOutside (a n : Nat) (m m' : Memory) : Prop := ∀ x, x < a ∨ a + n ≤ x → m'.read x = m.read x

/-- `t` is `s` after the successful completion of `p` with `OUT_LEN` = n, whatever MEM holds: beside MEM only OUT_LEN, ERR,
ERR_POS, LAST_OP, BUSY and DONE differ (44_control.md R181). -/
def Completed (p : Latch) (n : Nat) (s t : State) : Prop :=
  t = { s with mem := t.mem, outLen := BitVec.ofNat 32 n, err := .noError, errPos := 0xFFFFFFFF,
               lastOp := p.cmd.extractLsb' 0 8, pend := none, done := true }

/-- `s` after the completion of `p` with an error (60_exceptions.md R204): only OUT_LEN, ERR, ERR_POS, LAST_OP, BUSY and DONE
differ. -/
def failed (p : Latch) (e : ErrCode) (pos : Word) (s : State) : State :=
  { s with outLen := 0, err := e, errPos := pos, lastOp := p.cmd.extractLsb' 0 8, pend := none, done := true }

/-- `c` is a hex character of value `v` (00_scope.md R14, 43_codecs.md R174). -/
abbrev HexChar (c : Word) (v : Nat) : Prop :=
  (0x30 ≤ c.toNat ∧ c.toNat ≤ 0x39 ∧ v = c.toNat - 0x30) ∨
  (0x61 ≤ c.toNat ∧ c.toNat ≤ 0x66 ∧ v = c.toNat - 0x61 + 10) ∨
  (0x41 ≤ c.toNat ∧ c.toNat ≤ 0x46 ∧ v = c.toNat - 0x41 + 10)

/-- `c` is no hex character (43_codecs.md R174). -/
abbrev NotHexChar (c : Word) : Prop :=
  ¬ (0x30 ≤ c.toNat ∧ c.toNat ≤ 0x39) ∧ ¬ (0x61 ≤ c.toNat ∧ c.toNat ≤ 0x66) ∧ ¬ (0x41 ≤ c.toNat ∧ c.toNat ≤ 0x46)

/-- The code point of the lower-case hex digit of value `d` (00_scope.md R14). -/
def hexCode (d : Nat) : Nat := if d ≤ 9 then 0x30 + d else 0x61 + (d - 10)

/-- The byte at position `k` of the framing of the `n` bytes `f` (41_framing.md R121, R125). -/
def framedByte (n : Nat) (f : Nat → Byte) (k : Nat) : Byte := if k < n then f k else if k = n then 0xFF else 0x00

/-- The byte that the transform combines with byte `k` of a message: the base key's cell of its place in its block, XOR the
low byte of the block's index (40_key_setup.md R108, R111). -/
def keyByte (keymat : ByteMatrix) (k : Nat) : Byte := keymat[k % 16] ^^^ BitVec.ofNat 8 (k / 16)

/-- Every byte of a command's source regions is written. -/
abbrev SourcesWritten (i : Instr) (p : Latch) (m : Memory) : Prop :=
  ∀ r ∈ (operandRegions i p).srcs, ∀ k, k < r.size → (m.read (r.addr + k)).isSome = true

/-- The offset lies in the command's destination region of 30_encoding.md R74. -/
def InDestination (i : Instr) (p : Latch) (x : Nat) : Prop :=
  ∃ d, (operandRegions i p).dst = some d ∧ d.addr ≤ x ∧ x < d.addr + d.size

/-- The commands that raise NO_KEY without a key (10_state.md R42). -/
def needsKey : Instr → Bool
  | .bkgen | .bxform | .encrypt | .decrypt => true
  | .nop | .keyset | .xorm | .frame | .hexenc | .hexdec | .txtenc | .txtdec => false
  | .illegal _ | .srst | .doneclr _ _ | .ovrclr _ _ | .ctrlwr _ _ _ => false

/-- The commands that read a source in MEM (30_encoding.md R74). -/
def readsMem : Instr → Bool
  | .keyset | .xorm | .bxform | .frame | .hexenc | .hexdec | .txtenc | .txtdec | .encrypt | .decrypt => true
  | .nop | .bkgen => false
  | .illegal _ | .srst | .doneclr _ _ | .ovrclr _ _ | .ctrlwr _ _ _ => false

/-- The engine's turn comes next (20_memory.md R62). -/
def EngineNext (s : State) : Prop := s.events = [] ∨ ∃ rest, s.events = .engine :: rest

/-- What holds in every state a run reaches: the configuration is legal; MEM keeps its canonical form inside its bounds; DONE is
0 while a command is pending (44_control.md R185); the Base Key Matrix is that of the padded key (40_key_setup.md R103), and without
a key all three matrices are zero (10_state.md R42, 70_reset_and_hazards.md R233); OUT_LEN is 0 after an error and never beyond MEM
(10_state.md R33); ERR_POS holds a position only for the two content errors (10_state.md R34). -/
abbrev StateInv (s : State) : Prop :=
  s.config.Legal ∧
  s.mem.wf ∧
  s.mem.within s.config.memSize ∧
  (s.pend.isSome = true → s.done = false) ∧
  s.keymat = baseKey s.keypad ∧
  (s.keyValid = false → s.keypad = ByteMatrix.zero ∧ s.bkmat = ByteMatrix.zero) ∧
  (s.err ≠ .noError → s.outLen = 0) ∧
  s.outLen.toNat ≤ s.config.memSize ∧
  (s.errPos = 0xFFFFFFFF ∨ ((s.err = .encodingError ∨ s.err = .malformedInput) ∧ s.errPos.toNat < s.config.memSize))

end Sys2Proof.Machine
end

