-- ==== Sys2Proof/Certificates/Slice0/Obligations.lean ====
section
/-! DEFINITION. The statements for the provers. Each docstring names the rules of spec/ it formalises. In all of them `M` is the
configuration's MEM_SIZE, so they hold for every size of the message memory. -/

open Sys2Proof Sys2Proof.Machine

/-! ### Encoding -/

/-- 30_encoding.md R72, R75, R77: decoding the word of a well-formed instruction, written to its port, gives it back. (That a
CTRL word is named by the first table row matching it is the model's choice, log entry 5.) -/
def Obligations.DecodeOfEncodeIsTheInstruction : Prop :=
  ∀ i : Instr, i.wellFormed = true → decode i.port (encode i) = i

/-- 30_encoding.md R75, R77: every word decodes on each port to one well-formed instruction of that port; a CMD word is its
encoding, a CTRL word is its encoding up to the ignored bits.
(The naming of CTRL words is the model's choice, log entry 5.) -/
def Obligations.EveryWordIsOneInstruction : Prop :=
  ∀ w : Word,
    ((decode .cmd w).wellFormed = true ∧ (decode .cmd w).port = .cmd ∧ encode (decode .cmd w) = w) ∧
    ((decode .ctrl w).wellFormed = true ∧ (decode .ctrl w).port = .ctrl ∧
      encode (decode .ctrl w) = if w.getLsbD 1 then 0x00000002 else w &&& 0x0000000D)

/-- 30_encoding.md R73: exactly the words with RSV ≠ 0 or OPC in 0x0C..0xFF are illegal commands. -/
def Obligations.ReservedWordsAreIllegalCommands : Prop :=
  ∀ w : Word, decode .cmd w = .illegal w ↔ (w.toNat / 256 ≠ 0 ∨ 0x0C ≤ w.toNat % 256)

/-- 30_encoding.md R72, R77: a few words of the table. (The naming of CTRL words is the model's choice, log entry 5.) -/
def Obligations.TableWordsDecode : Prop :=
  decode .cmd 0x00000000 = .nop ∧ decode .cmd 0x00000001 = .keyset ∧ decode .cmd 0x00000003 = .xorm ∧
  decode .cmd 0x00000005 = .frame ∧ decode .cmd 0x00000006 = .hexenc ∧ decode .cmd 0x0000000A = .encrypt ∧
  decode .cmd 0x0000000C = .illegal 0x0000000C ∧ decode .cmd 0x00000100 = .illegal 0x00000100 ∧
  decode .ctrl 0x00000002 = .srst ∧ decode .ctrl 0x00000005 = .doneclr false true ∧
  decode .ctrl 0x00000008 = .ovrclr false false ∧ decode .ctrl 0x00000001 = .ctrlwr false false true

/-! ### The step -/

/-- 44_control.md R181, 30_encoding.md R75, 10_state.md R40, 60_exceptions.md R226: at the engine's turn a step is `exec` of the
decoded latched command, and takes the turn off the coming events; with no command pending it only takes the turn off. (The list
of coming events is the model's own, log entry 2; that the turn comes when no event is left, log entry 14; that an idle turn does
nothing, log entry 12.) -/
def Obligations.EngineTurnRunsTheLatchedCommand : Prop :=
  (∀ (s : State) (p : Latch), s.pend = some p →
    (s.events = [] → step s = exec (decode .cmd p.cmd) s) ∧
    (∀ rest, s.events = .engine :: rest → step s = exec (decode .cmd p.cmd) { s with events := rest })) ∧
  (∀ s : State, s.pend = none →
    (s.events = [] → step s = .next s) ∧
    (∀ rest, s.events = .engine :: rest → step s = .next { s with events := rest }))

/-- 44_control.md R183: a host write to CTRL is `exec` of the decoded CTRL word; the step only takes the access off the coming
events. -/
def Obligations.CtrlWriteRunsTheDecodedWord : Prop :=
  ∀ (s : State) (v : Word) (rest : List Event), s.events = .host (.write 32 0x0008 v) :: rest →
    step s = exec (decode .ctrl v) { s with events := rest }

/-- The model's interface (log entry 17): the fetch word is the next command the step runs, on the latch an accepted CMD
write leaves (44_control.md R180). -/
def Obligations.FetchWordIsTheNextCommand : Prop :=
  ∀ (s : State) (nbits w : Nat) (i : Instr), decodeTableWord nbits w = some i →
    step (s.withFetchWord nbits w) =
      exec i { s with pend := some { cmd := BitVec.ofNat 32 (w % 2 ^ nbits), srcAddr := s.srcAddr, srcLen := s.srcLen,
                                     auxAddr := s.auxAddr, dstAddr := s.dstAddr, blkIdx := s.blkIdx },
                      done := false }

/-- 44_control.md R180: a CMD write is accepted when BUSY = 0 and only sets OVR otherwise. -/
def Obligations.CmdWriteIsAcceptedWhenIdle : Prop :=
  ∀ (s : State) (v : Word) (rest : List Event), s.events = .host (.write 32 0x0010 v) :: rest →
    (s.pend = none →
      step s = .next { s with events := rest, done := false,
                              pend := some { cmd := v, srcAddr := s.srcAddr, srcLen := s.srcLen, auxAddr := s.auxAddr,
                                             dstAddr := s.dstAddr, blkIdx := s.blkIdx } }) ∧
    (s.pend ≠ none → step s = .next { s with events := rest, ovr := true })

/-! ### Control -/

/-- 44_control.md R187: NOP completes, whatever the operand registers and the key hold, and only the completion fields change; so does
the step at the engine's turn for the word 0x00000000, with LAST_OP 0x00. -/
def Obligations.NopCompletes : Prop :=
  (∀ (s : State) (p : Latch), s.pend = some p →
    exec .nop s = .next { s with outLen := 0, err := .noError, errPos := 0xFFFFFFFF, lastOp := p.cmd.extractLsb' 0 8,
                                 pend := none, done := true }) ∧
  (∀ (s : State) (p : Latch), s.pend = some p → s.events = [] → p.cmd = 0x00000000 →
    step s = .next { s with outLen := 0, err := .noError, errPos := 0xFFFFFFFF, lastOp := 0x00, pend := none,
                            done := true }) ∧
  errBits .noError = 0

/-- 44_control.md R188: an illegal command word completes with ERR 5, and nothing else changes; so does the step at the engine's turn
for every word with RSV ≠ 0 or a reserved OPC. -/
def Obligations.IllegalCommandCompletes : Prop :=
  (∀ (s : State) (p : Latch) (w : Word), s.pend = some p →
    exec (.illegal w) s = .next (failed p .illegalCommand 0xFFFFFFFF s)) ∧
  (∀ (s : State) (p : Latch), s.pend = some p → s.events = [] → (p.cmd.toNat / 256 ≠ 0 ∨ 0x0C ≤ p.cmd.toNat % 256) →
    step s = .next (failed p .illegalCommand 0xFFFFFFFF s)) ∧
  errBits .illegalCommand = 5

/-- 44_control.md R183: what a CTRL write of `v` does, bit by bit. -/
def Obligations.CtrlWriteBits : Prop :=
  ∀ (s : State) (v : Word) (rest : List Event), s.events = .host (.write 32 0x0008 v) :: rest →
    (v.getLsbD 1 = true → step s = exec .srst { s with events := rest }) ∧
    (v.getLsbD 1 = false →
      step s = .next { s with events := rest, ie := v.getLsbD 0, done := if v.getLsbD 2 then false else s.done,
                              ovr := if v.getLsbD 3 then false else s.ovr })

/-- 44_control.md R185, R186, R183: DONECLR, OVRCLR and CTRLWR complete in every state, with these effects and no other. -/
def Obligations.CtrlWritesComplete : Prop :=
  ∀ (s : State) (o d e : Bool),
    exec (.doneclr o e) s = .next { s with ie := e, done := false, ovr := if o then false else s.ovr } ∧
    exec (.ovrclr d e) s = .next { s with ie := e, ovr := false, done := if d then false else s.done } ∧
    exec (.ctrlwr o d e) s = .next { s with ie := e, done := if d then false else s.done, ovr := if o then false else s.ovr }

/-- 44_control.md R184, 10_state.md R48, 70_reset_and_hazards.md R231: the soft reset completes in every state; every register is at its reset value,
and MEM is unchanged but for the destination of an aborted command whose regions pass, whose bytes are unwritten. -/
def Obligations.SoftResetCompletes : Prop :=
  ∀ s : State, ∃ t, exec .srst s = .next t ∧
    t = { config := s.config, ie := false, pend := none, done := false, keyValid := false, ovr := false, err := .noError,
          lastOp := 0, srcAddr := 0, srcLen := 0, auxAddr := 0, dstAddr := 0, blkIdx := 0, outLen := 0,
          errPos := 0xFFFFFFFF, keypad := ByteMatrix.zero, keymat := ByteMatrix.zero, bkmat := ByteMatrix.zero,
          mem := t.mem, events := s.events, readback := s.readback } ∧
    (s.pend = none → ∀ x, t.mem.read x = s.mem.read x) ∧
    (∀ p, s.pend = some p →
      ((operandRegions (decode .cmd p.cmd) p).ok s.config.memSize = false → ∀ x, t.mem.read x = s.mem.read x) ∧
      ((operandRegions (decode .cmd p.cmd) p).ok s.config.memSize = true →
        ∀ x, (InDestination (decode .cmd p.cmd) p x → t.mem.read x = none) ∧
             (¬ InDestination (decode .cmd p.cmd) p x → t.mem.read x = s.mem.read x)))

/-! ### Regions and errors -/

/-- 30_encoding.md R74 with 20_memory.md R56, R57: when the regions of each command pass, on unbounded integers. -/
def Obligations.RegionTable : Prop :=
  ∀ (p : Latch) (M : Nat),
    let n := p.srcLen.toNat
    let src := p.srcAddr.toNat
    let aux := p.auxAddr.toNat
    let dst := p.dstAddr.toNat
    ((operandRegions .nop p).ok M = true) ∧
    ((operandRegions .keyset p).ok M = true ↔ regionValid M src (4 * n) 4) ∧
    ((operandRegions .bkgen p).ok M = true) ∧
    ((operandRegions .xorm p).ok M = true ↔
      src + 16 ≤ M ∧ aux + 16 ≤ M ∧ dst + 16 ≤ M ∧ (dst + 16 ≤ src ∨ src + 16 ≤ dst) ∧ (dst + 16 ≤ aux ∨ aux + 16 ≤ dst)) ∧
    ((operandRegions .bxform p).ok M = true ↔ src + 16 ≤ M ∧ dst + 16 ≤ M ∧ (dst + 16 ≤ src ∨ src + 16 ≤ dst)) ∧
    ((operandRegions .frame p).ok M = true ↔
      regionValid M src n 1 ∧ regionValid M dst (16 * nblocks n) 1 ∧ ¬ regionsOverlap dst (16 * nblocks n) src n) ∧
    ((operandRegions .hexenc p).ok M = true ↔
      regionValid M src n 1 ∧ regionValid M dst (8 * n) 4 ∧ ¬ regionsOverlap dst (8 * n) src n) ∧
    ((operandRegions .hexdec p).ok M = true ↔
      regionValid M src (4 * n) 4 ∧ regionValid M dst (n / 2) 1 ∧ ¬ regionsOverlap dst (n / 2) src (4 * n)) ∧
    ((operandRegions .txtenc p).ok M = true ↔
      regionValid M src (4 * n) 4 ∧ regionValid M dst n 1 ∧ ¬ regionsOverlap dst n src (4 * n)) ∧
    ((operandRegions .txtdec p).ok M = true ↔
      regionValid M src n 1 ∧ regionValid M dst (4 * n) 4 ∧ ¬ regionsOverlap dst (4 * n) src n) ∧
    ((operandRegions .encrypt p).ok M = true ↔
      regionValid M src (4 * n) 4 ∧ regionValid M dst (128 * nblocks n) 4 ∧
        ¬ regionsOverlap dst (128 * nblocks n) src (4 * n)) ∧
    ((operandRegions .decrypt p).ok M = true ↔
      regionValid M src (4 * n) 4 ∧ regionValid M dst (4 * (n / 2)) 4 ∧
        ¬ regionsOverlap dst (4 * (n / 2)) src (4 * n))

/-- 10_state.md R42, 60_exceptions.md R202 item 2: without a key the four commands that need one report NO_KEY, before any other check. -/
def Obligations.CommandsWithoutKeyReportNoKey : Prop :=
  ∀ (i : Instr) (s : State) (p : Latch), needsKey i = true → s.pend = some p → s.keyValid = false →
    exec i s = .next (failed p .noKey 0xFFFFFFFF s)

/-- 20_memory.md R56, R57, 60_exceptions.md R202 item 3: a command whose regions do not pass reports BAD_REGION, whatever MEM holds. -/
def Obligations.BadRegionsAreReported : Prop :=
  ∀ (i : Instr) (s : State) (p : Latch), i.port = .cmd → s.pend = some p → (needsKey i = true → s.keyValid = true) →
    (operandRegions i p).ok s.config.memSize = false →
    exec i s = .next (failed p .badRegion 0xFFFFFFFF s)

/-- 60_exceptions.md R204: a command that ends with an error changes only the completion fields. -/
def Obligations.ErrorsChangeOnlyCompletionFields : Prop :=
  ∀ (i : Instr) (s t : State), i.port = .cmd → exec i s = .next t → t.err ≠ .noError →
    ∃ p pos, s.pend = some p ∧ t = failed p t.err pos s

/-- 44_control.md R182: a source byte that is unwritten is a fault, once the earlier checks have passed. -/
def Obligations.UnwrittenSourceFaults : Prop :=
  ∀ (i : Instr) (s : State) (p : Latch), readsMem i = true → s.pend = some p → (needsKey i = true → s.keyValid = true) →
    (operandRegions i p).ok s.config.memSize = true → ¬ SourcesWritten i p s.mem →
    exec i s = .fault .unwrittenRead

/-- 44_control.md R189, R181: every pending command whose source is written completes, with success or an error, and leaves the
engine idle with DONE = 1 and its OPC in LAST_OP. -/
def Obligations.EveryPendingCommandCompletes : Prop :=
  ∀ (i : Instr) (s : State) (p : Latch), i.port = .cmd → s.pend = some p →
    ((operandRegions i p).ok s.config.memSize = true → SourcesWritten i p s.mem) →
    ∃ t, exec i s = .next t ∧ t.pend = none ∧ t.done = true ∧ t.lastOp = p.cmd.extractLsb' 0 8

/-- 20_memory.md R58, R68: a completion changes no byte of MEM outside the destination region of its command. -/
def Obligations.CompletionWritesOnlyItsDestination : Prop :=
  ∀ (i : Instr) (s t : State) (p : Latch), i.port = .cmd → s.pend = some p → exec i s = .next t →
    ∀ x, ¬ InDestination i p x → t.mem.read x = s.mem.read x

/-! ### Key setup -/

/-- 40_key_setup.md R100, R102, R103: KEYSET on a written key text of characters up to 255 loads the padded key and the Base Key
Matrix. -/
def Obligations.KeysetLoadsTheKey : Prop :=
  ∀ (s : State) (p : Latch) (n : Nat) (c : Nat → Word), s.pend = some p → n = p.srcLen.toNat → 0 < n →
    regionValid s.config.memSize p.srcAddr.toNat (4 * n) 4 → HoldsText s.mem p.srcAddr.toNat n c →
    (∀ k, k < n → (c k).toNat ≤ 255) →
    ∃ t, exec .keyset s = .next t ∧
      t = { s with keypad := t.keypad, keymat := t.keymat, keyValid := true, outLen := 0, err := .noError,
                   errPos := 0xFFFFFFFF, lastOp := p.cmd.extractLsb' 0 8, pend := none, done := true } ∧
      (∀ k, (h : k < 16) → (t.keypad[k]).toNat = (c (k % n)).toNat) ∧
      (∀ i j : Fin 4, (t.keymat[4 * i.val + j.val]).toNat =
        (t.keypad[4 * i.val + j.val]).toNat * (t.keypad[4 * j.val + i.val]).toNat % 256)

/-- 40_key_setup.md R100, R101, R104: KEYSET of an empty key reports INVALID_KEY wherever it stands; of a key with a character above
255, ENCODING_ERROR at the first one, also beyond position 15. -/
def Obligations.KeysetErrors : Prop :=
  ∀ (s : State) (p : Latch), s.pend = some p →
    (p.srcLen.toNat = 0 → exec .keyset s = .next (failed p .invalidKey 0xFFFFFFFF s)) ∧
    (∀ (c : Nat → Word) (k : Nat), regionValid s.config.memSize p.srcAddr.toNat (4 * p.srcLen.toNat) 4 →
      HoldsText s.mem p.srcAddr.toNat p.srcLen.toNat c → k < p.srcLen.toNat → (∀ j, j < k → (c j).toNat ≤ 255) →
      255 < (c k).toNat →
      exec .keyset s = .next (failed p .encodingError (BitVec.ofNat 32 k) s))

/-- 40_key_setup.md R105 (a), (b): in every state a run can reach the Base Key Matrix is symmetric, and its diagonal holds the
squares of the padded key's diagonal bytes. (The spec itself derives it from R103.) -/
def Obligations.BaseKeyMatrixIsSymmetric : Prop :=
  ∀ s : State, StateInv s → ∀ i j : Fin 4,
    s.keymat[4 * i.val + j.val] = s.keymat[4 * j.val + i.val] ∧
    (s.keymat[5 * i.val]).toNat = (s.keypad[5 * i.val]).toNat ^ 2 % 256

/-- 40_key_setup.md R108, R109: BKGEN with a key derives the Block Key Matrix, in both forms the source gives, and changes nothing
else. (That the two forms agree the spec itself derives.) -/
def Obligations.BkgenDerivesTheBlockKey : Prop :=
  ∀ (s : State) (p : Latch), s.pend = some p → s.keyValid = true →
    ∃ t, exec .bkgen s = .next t ∧
      t = { s with bkmat := t.bkmat, outLen := 0, err := .noError, errPos := 0xFFFFFFFF,
                   lastOp := p.cmd.extractLsb' 0 8, pend := none, done := true } ∧
      ∀ k, (h : k < 16) →
        (t.bkmat[k]).toNat = ((s.keymat[k]).toNat ^^^ (p.blkIdx.toNat % 256)) % 256 ∧
        (t.bkmat[k]).toNat = ((s.keymat[k]).toNat ^^^ p.blkIdx.toNat) % 256

/-- 40_key_setup.md R112: the block a message combines repeats with period 256 in the block index.
(The spec itself derives it from R108.) -/
def Obligations.BlockKeysRepeatWithPeriod256 : Prop :=
  ∀ (k : ByteMatrix) (b : Nat), blockKey k (b + 256) = blockKey k b ∧ blockKey k 0 = k

/-! ### Framing and transform -/

/-- 41_framing.md R120, R121, R125: FRAME writes the framed bytes. (The number of blocks the spec itself derives.) -/
def Obligations.FrameCompletes : Prop :=
  ∀ (s : State) (p : Latch) (n : Nat) (f : Nat → Byte), s.pend = some p → n = p.srcLen.toNat →
    regionValid s.config.memSize p.srcAddr.toNat n 1 → regionValid s.config.memSize p.dstAddr.toNat (16 * nblocks n) 1 →
    ¬ regionsOverlap p.dstAddr.toNat (16 * nblocks n) p.srcAddr.toNat n → HoldsBytes s.mem p.srcAddr.toNat n f →
    ∃ t, exec .frame s = .next t ∧ Completed p (16 * nblocks n) s t ∧
      HoldsBytes t.mem p.dstAddr.toNat (16 * nblocks n) (framedByte n f) ∧
      SameOutside p.dstAddr.toNat (16 * nblocks n) s.mem t.mem

/-- 42_transform.md R130, R131: XORM writes the byte-wise XOR of two 16-byte matrices.
(The byte-wise form the spec itself derives.) -/
def Obligations.XormCompletes : Prop :=
  ∀ (s : State) (p : Latch) (a b : Nat → Byte), s.pend = some p →
    p.srcAddr.toNat + 16 ≤ s.config.memSize → p.auxAddr.toNat + 16 ≤ s.config.memSize →
    p.dstAddr.toNat + 16 ≤ s.config.memSize → ¬ regionsOverlap p.dstAddr.toNat 16 p.srcAddr.toNat 16 →
    ¬ regionsOverlap p.dstAddr.toNat 16 p.auxAddr.toNat 16 →
    HoldsBytes s.mem p.srcAddr.toNat 16 a → HoldsBytes s.mem p.auxAddr.toNat 16 b →
    ∃ t, exec .xorm s = .next t ∧ Completed p 16 s t ∧
      HoldsBytes t.mem p.dstAddr.toNat 16 (fun k => a k ^^^ b k) ∧ SameOutside p.dstAddr.toNat 16 s.mem t.mem

/-- 42_transform.md R132: the combiner is self-inverse and commutative, and a matrix combined with itself is zero.
(Commutativity and the zero the spec itself derives.) -/
def Obligations.CombinerIsSelfInverse : Prop :=
  ∀ a b : ByteMatrix, xorM (xorM a b) b = a ∧ xorM a b = xorM b a ∧ xorM a a = ByteMatrix.zero

/-- 42_transform.md R136: BXFORM with a key combines one block with its block key, keeps the block key in BKMAT, and advances
BLK_IDX modulo 2^32. -/
def Obligations.BxformCompletes : Prop :=
  ∀ (s : State) (p : Latch) (x : Nat → Byte), s.pend = some p → s.keyValid = true →
    p.srcAddr.toNat + 16 ≤ s.config.memSize → p.dstAddr.toNat + 16 ≤ s.config.memSize →
    ¬ regionsOverlap p.dstAddr.toNat 16 p.srcAddr.toNat 16 → HoldsBytes s.mem p.srcAddr.toNat 16 x →
    ∃ t, exec .bxform s = .next t ∧
      t = { s with mem := t.mem, bkmat := t.bkmat, blkIdx := BitVec.ofNat 32 (p.blkIdx.toNat + 1), outLen := 16,
                   err := .noError, errPos := 0xFFFFFFFF, lastOp := p.cmd.extractLsb' 0 8, pend := none, done := true } ∧
      (∀ k, (h : k < 16) → t.bkmat[k] = s.keymat[k] ^^^ BitVec.ofNat 8 p.blkIdx.toNat) ∧
      (∀ k, (h : k < 16) →
        t.mem.read (p.dstAddr.toNat + k) = some (x k ^^^ s.keymat[k] ^^^ BitVec.ofNat 8 p.blkIdx.toNat)) ∧
      SameOutside p.dstAddr.toNat 16 s.mem t.mem

/-- 42_transform.md R138: BXFORM of the block BXFORM wrote, with the same index, gives the block back.
(The spec itself derives it.) -/
def Obligations.BxformTwiceGivesTheBlockBack : Prop :=
  ∀ (s : State) (p q : Latch) (x : Nat → Byte), s.pend = some p → s.keyValid = true →
    p.srcAddr.toNat + 16 ≤ s.config.memSize → p.dstAddr.toNat + 16 ≤ s.config.memSize →
    ¬ regionsOverlap p.dstAddr.toNat 16 p.srcAddr.toNat 16 → HoldsBytes s.mem p.srcAddr.toNat 16 x →
    q.srcAddr = p.dstAddr → q.blkIdx = p.blkIdx → q.dstAddr.toNat + 16 ≤ s.config.memSize →
    ¬ regionsOverlap q.dstAddr.toNat 16 q.srcAddr.toNat 16 →
    ∃ t u, exec .bxform s = .next t ∧ exec .bxform { t with pend := some q } = .next u ∧ u.err = .noError ∧
      HoldsBytes u.mem q.dstAddr.toNat 16 x

/-- 42_transform.md R140, R141: ENCRYPT with a key of a written plaintext of characters up to 255 writes two lower-case hex digits
for every byte of the framed plaintext combined with its block key.
(Digit order and code values are the spec's general knowledge, log entry 18.) -/
def Obligations.EncryptCompletes : Prop :=
  ∀ (s : State) (p : Latch) (n : Nat) (c : Nat → Word), s.pend = some p → s.keyValid = true → n = p.srcLen.toNat →
    regionValid s.config.memSize p.srcAddr.toNat (4 * n) 4 →
    regionValid s.config.memSize p.dstAddr.toNat (128 * nblocks n) 4 →
    ¬ regionsOverlap p.dstAddr.toNat (128 * nblocks n) p.srcAddr.toNat (4 * n) →
    HoldsText s.mem p.srcAddr.toNat n c → (∀ k, k < n → (c k).toNat ≤ 255) →
    ∃ t, exec .encrypt s = .next t ∧ Completed p (32 * nblocks n) s t ∧
      (∀ q, q < 16 * nblocks n →
        let y := (framedByte n (fun k => BitVec.ofNat 8 (c k).toNat) q ^^^ keyByte s.keymat q).toNat
        t.mem.readWord (p.dstAddr.toNat + 8 * q) = some (BitVec.ofNat 32 (hexCode (y / 16))) ∧
        t.mem.readWord (p.dstAddr.toNat + 8 * q + 4) = some (BitVec.ofNat 32 (hexCode (y % 16)))) ∧
      SameOutside p.dstAddr.toNat (128 * nblocks n) s.mem t.mem

/-- 42_transform.md R145, R147, R148: DECRYPT with a key of a written ciphertext of hex digits `v` whose byte count is a positive
multiple of 16 writes the decrypted characters before the first 0xFF, or all of them where there is none.
(Digit order and code values are the spec's general knowledge, log entry 18.) -/
def Obligations.DecryptCompletes : Prop :=
  ∀ (s : State) (p : Latch) (n e : Nat) (c : Nat → Word) (v : Nat → Nat), s.pend = some p → s.keyValid = true →
    n = p.srcLen.toNat → regionValid s.config.memSize p.srcAddr.toNat (4 * n) 4 →
    regionValid s.config.memSize p.dstAddr.toNat (4 * (n / 2)) 4 →
    ¬ regionsOverlap p.dstAddr.toNat (4 * (n / 2)) p.srcAddr.toNat (4 * n) →
    HoldsText s.mem p.srcAddr.toNat n c → (∀ k, k < n → HexChar (c k) (v k)) → 0 < n → n % 32 = 0 →
    let d := fun q => BitVec.ofNat 8 (v (2 * q) * 16 + v (2 * q + 1)) ^^^ keyByte s.keymat q
    (∀ q, q < e → d q ≠ 0xFF) → (e = n / 2 ∨ (e < n / 2 ∧ d e = 0xFF)) →
    ∃ t, exec .decrypt s = .next t ∧ Completed p e s t ∧
      (∀ q, q < e → t.mem.readWord (p.dstAddr.toNat + 4 * q) = some (BitVec.ofNat 32 (d q).toNat)) ∧
      SameOutside p.dstAddr.toNat (4 * e) s.mem t.mem

/-- 42_transform.md R145, R146, 60_exceptions.md R202 items 4 to 6, R203: DECRYPT reports an odd length before any character, the first non-hex
character before the byte count, and then a byte count that is 0 or no multiple of 16.
(The code values are the spec's general knowledge, log entry 18.) -/
def Obligations.DecryptErrors : Prop :=
  ∀ (s : State) (p : Latch) (n : Nat) (c : Nat → Word), s.pend = some p → s.keyValid = true → n = p.srcLen.toNat →
    (operandRegions .decrypt p).ok s.config.memSize = true → HoldsText s.mem p.srcAddr.toNat n c →
    (n % 2 = 1 → exec .decrypt s = .next (failed p .malformedInput 0xFFFFFFFF s)) ∧
    (∀ (k : Nat) (v : Nat → Nat), n % 2 = 0 → k < n → (∀ j, j < k → HexChar (c j) (v j)) → NotHexChar (c k) →
      exec .decrypt s = .next (failed p .malformedInput (BitVec.ofNat 32 k) s)) ∧
    (∀ v : Nat → Nat, n % 2 = 0 → (∀ j, j < n → HexChar (c j) (v j)) → (n / 2 = 0 ∨ n / 2 % 16 ≠ 0) →
      exec .decrypt s = .next (failed p .malformedInput 0xFFFFFFFF s))

/-- 42_transform.md R150 item 1: for every plaintext of code points in [0, 254], DECRYPT of what ENCRYPT wrote, into any region that
passes, writes the plaintext back and reports its length. (The spec itself derives it.) -/
def Obligations.DecryptOfEncryptIsThePlaintext : Prop :=
  ∀ (s : State) (p q : Latch) (n : Nat) (c : Nat → Word), s.pend = some p → s.keyValid = true → n = p.srcLen.toNat →
    (operandRegions .encrypt p).ok s.config.memSize = true → HoldsText s.mem p.srcAddr.toNat n c →
    (∀ k, k < n → (c k).toNat ≤ 254) →
    q.srcAddr = p.dstAddr → q.srcLen.toNat = 32 * nblocks n → (operandRegions .decrypt q).ok s.config.memSize = true →
    ∃ t u, exec .encrypt s = .next t ∧ exec .decrypt { t with pend := some q } = .next u ∧ u.err = .noError ∧
      u.outLen = p.srcLen ∧ HoldsText u.mem q.dstAddr.toNat n c

/-- 42_transform.md R150 item 3: two plaintexts of one length that differ at one position encrypt alike outside that position's
block. (The spec itself derives it.) -/
def Obligations.EncryptBlocksAreIndependent : Prop :=
  ∀ (s₁ s₂ : State) (p : Latch) (n q₀ : Nat) (c₁ c₂ : Nat → Word), s₁.pend = some p → s₂.pend = some p →
    s₁.keyValid = true → s₂.keyValid = true → s₁.keymat = s₂.keymat → s₁.config = s₂.config → n = p.srcLen.toNat →
    (operandRegions .encrypt p).ok s₁.config.memSize = true → HoldsText s₁.mem p.srcAddr.toNat n c₁ →
    HoldsText s₂.mem p.srcAddr.toNat n c₂ → (∀ k, k < n → (c₁ k).toNat ≤ 255 ∧ (c₂ k).toNat ≤ 255) →
    (∀ k, k < n → k ≠ q₀ → c₁ k = c₂ k) →
    ∃ t₁ t₂, exec .encrypt s₁ = .next t₁ ∧ exec .encrypt s₂ = .next t₂ ∧
      ∀ j, j < 32 * nblocks n → j / 32 ≠ q₀ / 16 →
        ∃ w, t₁.mem.readWord (p.dstAddr.toNat + 4 * j) = some w ∧ t₂.mem.readWord (p.dstAddr.toNat + 4 * j) = some w

/-- 42_transform.md R137, R151: BXFORM of block `b` of the framed plaintext, with BLK_IDX = b, writes the bytes whose hex ENCRYPT writes
for that block. (The spec itself derives it; digit order and code values are the spec's general knowledge, log entry 18.) -/
def Obligations.BxformOfAFramedBlockIsEncryptsBlock : Prop :=
  ∀ (s r : State) (p q : Latch) (n b : Nat) (c : Nat → Word), s.pend = some p → s.keyValid = true → n = p.srcLen.toNat →
    (operandRegions .encrypt p).ok s.config.memSize = true → HoldsText s.mem p.srcAddr.toNat n c →
    (∀ k, k < n → (c k).toNat ≤ 255) →
    r.pend = some q → r.keyValid = true → r.keymat = s.keymat → (operandRegions .bxform q).ok r.config.memSize = true →
    b < nblocks n → q.blkIdx = BitVec.ofNat 32 b →
    HoldsBytes r.mem q.srcAddr.toNat 16 (fun k => framedByte n (fun j => BitVec.ofNat 8 (c j).toNat) (16 * b + k)) →
    ∃ t u, exec .encrypt s = .next t ∧ exec .bxform r = .next u ∧
      ∀ k, k < 16 → ∃ y, u.mem.read (q.dstAddr.toNat + k) = some y ∧
        t.mem.readWord (p.dstAddr.toNat + 8 * (16 * b + k)) = some (BitVec.ofNat 32 (hexCode (y.toNat / 16))) ∧
        t.mem.readWord (p.dstAddr.toNat + 8 * (16 * b + k) + 4) = some (BitVec.ofNat 32 (hexCode (y.toNat % 16)))

/-! ### Codecs -/

/-- 43_codecs.md R160, R161: TXTENC of characters up to 255 writes one byte per character. -/
def Obligations.TxtencCompletes : Prop :=
  ∀ (s : State) (p : Latch) (n : Nat) (c : Nat → Word), s.pend = some p → n = p.srcLen.toNat →
    regionValid s.config.memSize p.srcAddr.toNat (4 * n) 4 → regionValid s.config.memSize p.dstAddr.toNat n 1 →
    ¬ regionsOverlap p.dstAddr.toNat n p.srcAddr.toNat (4 * n) → HoldsText s.mem p.srcAddr.toNat n c →
    (∀ k, k < n → (c k).toNat ≤ 255) →
    ∃ t, exec .txtenc s = .next t ∧ Completed p n s t ∧
      HoldsBytes t.mem p.dstAddr.toNat n (fun k => BitVec.ofNat 8 (c k).toNat) ∧ SameOutside p.dstAddr.toNat n s.mem t.mem

/-- 43_codecs.md R160, R161, 42_transform.md R140: TXTENC, and ENCRYPT with a key, report ENCODING_ERROR at the first character above 255. -/
def Obligations.WideCharactersAreReported : Prop :=
  ∀ (i : Instr) (s : State) (p : Latch) (k : Nat) (c : Nat → Word), (i = .txtenc ∨ (i = .encrypt ∧ s.keyValid = true)) →
    s.pend = some p → (operandRegions i p).ok s.config.memSize = true → HoldsText s.mem p.srcAddr.toNat p.srcLen.toNat c →
    k < p.srcLen.toNat → (∀ j, j < k → (c j).toNat ≤ 255) → 255 < (c k).toNat →
    exec i s = .next (failed p .encodingError (BitVec.ofNat 32 k) s)

/-- 43_codecs.md R164, R165: TXTDEC writes the bytes before the first 0xFF as characters, or all of them where there is none; the
rest of the destination is unchanged. -/
def Obligations.TxtdecCompletes : Prop :=
  ∀ (s : State) (p : Latch) (n e : Nat) (f : Nat → Byte), s.pend = some p → n = p.srcLen.toNat →
    regionValid s.config.memSize p.srcAddr.toNat n 1 → regionValid s.config.memSize p.dstAddr.toNat (4 * n) 4 →
    ¬ regionsOverlap p.dstAddr.toNat (4 * n) p.srcAddr.toNat n → HoldsBytes s.mem p.srcAddr.toNat n f →
    (∀ k, k < e → f k ≠ 0xFF) → (e = n ∨ (e < n ∧ f e = 0xFF)) →
    ∃ t, exec .txtdec s = .next t ∧ Completed p e s t ∧
      HoldsText t.mem p.dstAddr.toNat e (fun k => BitVec.ofNat 32 (f k).toNat) ∧
      SameOutside p.dstAddr.toNat (4 * e) s.mem t.mem

/-- 43_codecs.md R168, R169, R170: HEXENC writes two lower-case hex digits per byte, the high nibble first.
(Digit order and code values are the spec's general knowledge, log entry 18.) -/
def Obligations.HexencCompletes : Prop :=
  ∀ (s : State) (p : Latch) (n : Nat) (f : Nat → Byte), s.pend = some p → n = p.srcLen.toNat →
    regionValid s.config.memSize p.srcAddr.toNat n 1 → regionValid s.config.memSize p.dstAddr.toNat (8 * n) 4 →
    ¬ regionsOverlap p.dstAddr.toNat (8 * n) p.srcAddr.toNat n → HoldsBytes s.mem p.srcAddr.toNat n f →
    ∃ t, exec .hexenc s = .next t ∧ Completed p (2 * n) s t ∧
      (∀ k, k < n →
        t.mem.readWord (p.dstAddr.toNat + 8 * k) = some (BitVec.ofNat 32 (hexCode ((f k).toNat / 16))) ∧
        t.mem.readWord (p.dstAddr.toNat + 8 * k + 4) = some (BitVec.ofNat 32 (hexCode ((f k).toNat % 16)))) ∧
      SameOutside p.dstAddr.toNat (8 * n) s.mem t.mem

/-- 43_codecs.md R172, R173, R174: HEXDEC of an even number of hex characters of values `v`, either case, writes one byte per pair.
(The code values are the spec's general knowledge, log entry 18.) -/
def Obligations.HexdecCompletes : Prop :=
  ∀ (s : State) (p : Latch) (n : Nat) (c : Nat → Word) (v : Nat → Nat), s.pend = some p → n = p.srcLen.toNat →
    regionValid s.config.memSize p.srcAddr.toNat (4 * n) 4 → regionValid s.config.memSize p.dstAddr.toNat (n / 2) 1 →
    ¬ regionsOverlap p.dstAddr.toNat (n / 2) p.srcAddr.toNat (4 * n) → HoldsText s.mem p.srcAddr.toNat n c →
    n % 2 = 0 → (∀ k, k < n → HexChar (c k) (v k)) →
    ∃ t, exec .hexdec s = .next t ∧ Completed p (n / 2) s t ∧
      HoldsBytes t.mem p.dstAddr.toNat (n / 2) (fun q => BitVec.ofNat 8 (v (2 * q) * 16 + v (2 * q + 1))) ∧
      SameOutside p.dstAddr.toNat (n / 2) s.mem t.mem

/-- 43_codecs.md R172, R173: HEXDEC reports an odd length before any character, and the first non-hex character of an even text.
(The code values are the spec's general knowledge, log entry 18.) -/
def Obligations.HexdecErrors : Prop :=
  ∀ (s : State) (p : Latch) (n : Nat) (c : Nat → Word), s.pend = some p → n = p.srcLen.toNat →
    (operandRegions .hexdec p).ok s.config.memSize = true → HoldsText s.mem p.srcAddr.toNat n c →
    (n % 2 = 1 → exec .hexdec s = .next (failed p .malformedInput 0xFFFFFFFF s)) ∧
    (∀ (k : Nat) (v : Nat → Nat), n % 2 = 0 → k < n → (∀ j, j < k → HexChar (c j) (v j)) → NotHexChar (c k) →
      exec .hexdec s = .next (failed p .malformedInput (BitVec.ofNat 32 k) s))

/-- 43_codecs.md R175: decoding the hex of a byte sequence gives it back; the hex of a decoded text is its lower-case form.
(The spec itself derives it; the code values are the spec's general knowledge, log entry 18.) -/
def Obligations.HexRoundTrip : Prop :=
  (∀ b : List Byte, hexDecode (hexEncode b) = .ok b) ∧
  (∀ (t : List Word) (b : List Byte), hexDecode t = .ok b →
    hexEncode b = t.map fun c => if 0x41 ≤ c.toNat ∧ c.toNat ≤ 0x46 then c + 0x20 else c)

/-- 43_codecs.md R166: the text of the bytes of a text is the prefix before its first 255, the whole text where there is none.
(The spec itself derives it.) -/
def Obligations.TextRoundTrip : Prop :=
  ∀ (t : List Word), (∀ c ∈ t, c.toNat ≤ 255) →
    ∃ b, textToBytes t = .ok b ∧ bytesToText b = t.takeWhile (fun c => c != 255) ∧
      ((∀ c ∈ t, c.toNat ≤ 254) → bytesToText b = t)

/-! ### What changes each piece of state -/

/-- 10_state.md R37, R42, 40_key_setup.md R106: only a successful KEYSET and SRST change the key: the padded key, the Base Key Matrix and
KEY_VALID. -/
def Obligations.OnlyKeysetAndSoftResetChangeTheKey : Prop :=
  ∀ s t : State, step s = .next t →
    (t.keypad ≠ s.keypad ∨ t.keymat ≠ s.keymat ∨ t.keyValid ≠ s.keyValid) →
    (EngineNext s ∧ ∃ p, s.pend = some p ∧ decode .cmd p.cmd = .keyset ∧ t.err = .noError ∧ t.keyValid = true) ∨
    (∃ v rest, s.events = .host (.write 32 0x0008 v) :: rest ∧ v.getLsbD 1 = true)

/-- 10_state.md R38, R32: only BKGEN, BXFORM and SRST change BKMAT; only BXFORM, SRST and a host write to it change BLK_IDX. -/
def Obligations.WritersOfBkmatAndBlkIdx : Prop :=
  ∀ s t : State, step s = .next t →
    (t.bkmat ≠ s.bkmat →
      (EngineNext s ∧ ∃ p, s.pend = some p ∧ (decode .cmd p.cmd = .bkgen ∨ decode .cmd p.cmd = .bxform) ∧ t.err = .noError) ∨
      (∃ v rest, s.events = .host (.write 32 0x0008 v) :: rest ∧ v.getLsbD 1 = true)) ∧
    (t.blkIdx ≠ s.blkIdx →
      (EngineNext s ∧ ∃ p, s.pend = some p ∧ decode .cmd p.cmd = .bxform ∧ t.blkIdx = p.blkIdx + 1) ∨
      (∃ v rest, s.events = .host (.write 32 0x0024 v) :: rest ∧ t.blkIdx = v) ∨
      (∃ v rest, s.events = .host (.write 32 0x0008 v) :: rest ∧ v.getLsbD 1 = true))

/-- 10_state.md R43: a CMD write while BUSY = 1 sets OVR and does nothing else, nothing else sets it, and only OVRCLR and SRST clear
it. -/
def Obligations.OverrunIsSticky : Prop :=
  ∀ s t : State, step s = .next t →
    (∀ v rest, s.pend ≠ none → s.events = .host (.write 32 0x0010 v) :: rest → t = { s with events := rest, ovr := true }) ∧
    (s.ovr = false → t.ovr = true → s.pend ≠ none ∧ ∃ v rest, s.events = .host (.write 32 0x0010 v) :: rest) ∧
    (s.ovr = true → t.ovr = false →
      ∃ v rest, s.events = .host (.write 32 0x0008 v) :: rest ∧ (v.getLsbD 1 = true ∨ v.getLsbD 3 = true))

/-- 20_memory.md R68, 44_control.md R184: a byte of MEM changes only at the completion of a command whose destination holds it, at a host write of
its word while the engine is idle, or when SRST aborts a command whose destination holds it, which leaves it unwritten. -/
def Obligations.WhatChangesMemory : Prop :=
  ∀ (s t : State) (x : Nat), step s = .next t → t.mem.read x ≠ s.mem.read x →
    (EngineNext s ∧ ∃ p, s.pend = some p ∧ InDestination (decode .cmd p.cmd) p x) ∨
    (s.pend = none ∧ ∃ a v rest, s.events = .host (.write 32 a v) :: rest ∧ 0x10000 ≤ a.toNat ∧
      a.toNat ≤ 0x10000 + x ∧ 0x10000 + x < a.toNat + 4) ∨
    (t.mem.read x = none ∧ ∃ p v rest, s.pend = some p ∧ s.events = .host (.write 32 0x0008 v) :: rest ∧
      v.getLsbD 1 = true ∧ InDestination (decode .cmd p.cmd) p x)

/-- 10_state.md R35, 70_reset_and_hazards.md R242, R243: a completion does not see the live operand registers: with other values in them it does the
same and leaves them, but for the BLK_IDX a successful BXFORM writes. -/
def Obligations.CompletionReadsOnlyTheLatch : Prop :=
  ∀ (i : Instr) (s t : State) (a l x d b : Word), i.port = .cmd → exec i s = .next t →
    exec i { s with srcAddr := a, srcLen := l, auxAddr := x, dstAddr := d, blkIdx := b } =
      .next { t with srcAddr := a, srcLen := l, auxAddr := x, dstAddr := d,
                     blkIdx := if i = .bxform ∧ t.err = .noError then t.blkIdx else b }

/-- 20_memory.md R68, R58: what a completion does depends on no byte of MEM outside its source regions. -/
def Obligations.CompletionReadsOnlyItsSources : Prop :=
  ∀ (i : Instr) (s t : State) (p : Latch) (m : Memory), i.port = .cmd → s.pend = some p → exec i s = .next t →
    (∀ r ∈ (operandRegions i p).srcs, ∀ k, k < r.size → m.read (r.addr + k) = s.mem.read (r.addr + k)) →
    ∃ u, exec i { s with mem := m } = .next u ∧ u = { t with mem := u.mem } ∧
      ∀ x, u.mem.read x = t.mem.read x ∨ (t.mem.read x = s.mem.read x ∧ u.mem.read x = m.read x)

/-- 10_state.md R46, R41, 60_exceptions.md R210: the interrupt line after a completion is the enable bit, on success and error alike; acceptance and
DONECLR lower it, and so does SRST. -/
def Obligations.InterruptLine : Prop :=
  (∀ (i : Instr) (s t : State), i.port = .cmd → exec i s = .next t → t.irq = s.ie) ∧
  (∀ (s t : State) (v : Word) (rest : List Event), s.pend = none → s.events = .host (.write 32 0x0010 v) :: rest →
    step s = .next t → t.irq = false) ∧
  (∀ (s t : State) (o e : Bool), exec (.doneclr o e) s = .next t → t.irq = false) ∧
  (∀ s t : State, exec .srst s = .next t → t.irq = false)

/-! ### The host port -/

/-- 10_state.md R22 to R39, R47 item 4, 20_memory.md R59: a host read of a register returns the value the map gives it and changes
nothing else. The STATUS value sums its fields at their places, ERR by the code table of 60_exceptions.md R200. (The record of what
the host has read is the model's own, log entry 11.) -/
def Obligations.RegisterReads : Prop :=
  ∀ (s : State) (rest : List Event),
    let bit := fun b : Bool => if b then 1 else 0
    let row := fun (m : ByteMatrix) (i : Fin 4) =>
      (m[4 * i.val]).toNat + 256 * (m[4 * i.val + 1]).toNat + 65536 * (m[4 * i.val + 2]).toNat
        + 16777216 * (m[4 * i.val + 3]).toNat
    let code := fun e : ErrCode =>
      if e = .invalidKey then 1 else if e = .malformedInput then 2 else if e = .encodingError then 3
      else if e = .noKey then 4 else if e = .illegalCommand then 5 else if e = .badRegion then 6 else 0
    let status := bit s.pend.isSome + 2 * bit s.done + 4 * bit s.keyValid + 8 * bit s.ovr + 16 * code s.err
      + 256 * s.lastOp.toNat
    ∀ av ∈ [(0x0000, 0x42544531), (0x0004, s.config.memSize % 4294967296), (0x0008, bit s.ie), (0x000C, status), (0x0010, 0),
        (0x0014, s.srcAddr.toNat), (0x0018, s.srcLen.toNat), (0x001C, s.auxAddr.toNat), (0x0020, s.dstAddr.toNat),
        (0x0024, s.blkIdx.toNat), (0x0028, s.outLen.toNat), (0x002C, s.errPos.toNat),
        (0x0030, row s.keypad 0), (0x0034, row s.keypad 1), (0x0038, row s.keypad 2), (0x003C, row s.keypad 3),
        (0x0040, row s.keymat 0), (0x0044, row s.keymat 1), (0x0048, row s.keymat 2), (0x004C, row s.keymat 3),
        (0x0050, row s.bkmat 0), (0x0054, row s.bkmat 1), (0x0058, row s.bkmat 2), (0x005C, row s.bkmat 3)],
      s.events = .host (.read 32 (BitVec.ofNat 32 av.1)) :: rest →
        ∃ w, w.toNat = av.2 ∧ step s = .next { s with events := rest, readback := w :: s.readback }

/-- 10_state.md R28 to R32, 20_memory.md R59: a host write to an operand register stores the value, also while BUSY = 1, and changes nothing
else. -/
def Obligations.OperandRegisterWrites : Prop :=
  ∀ (s : State) (v : Word) (rest : List Event),
    (s.events = .host (.write 32 0x0014 v) :: rest → step s = .next { s with events := rest, srcAddr := v }) ∧
    (s.events = .host (.write 32 0x0018 v) :: rest → step s = .next { s with events := rest, srcLen := v }) ∧
    (s.events = .host (.write 32 0x001C v) :: rest → step s = .next { s with events := rest, auxAddr := v }) ∧
    (s.events = .host (.write 32 0x0020 v) :: rest → step s = .next { s with events := rest, dstAddr := v }) ∧
    (s.events = .host (.write 32 0x0024 v) :: rest → step s = .next { s with events := rest, blkIdx := v })

/-- 10_state.md R47 item 3: writes to the read-only registers are accepted and ignored. -/
def Obligations.ReadOnlyRegistersIgnoreWrites : Prop :=
  ∀ (s : State) (v : Word) (rest : List Event),
    ∀ a ∈ [0x0000, 0x0004, 0x000C, 0x0028, 0x002C, 0x0030, 0x0034, 0x0038, 0x003C, 0x0040, 0x0044, 0x0048, 0x004C, 0x0050,
        0x0054, 0x0058, 0x005C],
      s.events = .host (.write 32 (BitVec.ofNat 32 a) v) :: rest → step s = .next { s with events := rest }

/-- 10_state.md R47 items 1 and 2: an access of another width, at an unaligned address, or at an unmapped offset is a bus error.
(That it ends the run is log entry 9; that it is a bus error also where a command is pending, the model's choice of log entry 10.) -/
def Obligations.IllegalAccessesAreBusErrors : Prop :=
  ∀ (s : State) (bits : Nat) (a v : Word) (rest : List Event),
    (bits ≠ 32 ∨ a.toNat % 4 ≠ 0 ∨ (0x0060 ≤ a.toNat ∧ a.toNat < 0x10000) ∨ 0x10000 + s.config.memSize ≤ a.toNat) →
    (s.events = .host (.read bits a) :: rest → step s = .fault .busError) ∧
    (s.events = .host (.write bits a v) :: rest → step s = .fault .busError)

/-- 20_memory.md R51, R53, R54: on an idle engine a host write of a MEM word stores its four bytes, little-endian, and nothing else; a host
read returns the word of the four bytes, and faults if one of them is unwritten. -/
def Obligations.MemWindowAccesses : Prop :=
  ∀ (s : State) (a v : Word) (rest : List Event), s.pend = none → 0x10000 ≤ a.toNat → a.toNat % 4 = 0 →
    a.toNat - 0x10000 + 4 ≤ s.config.memSize →
    (s.events = .host (.write 32 a v) :: rest →
      ∃ t, step s = .next t ∧ t = { s with events := rest, mem := t.mem } ∧
        (∀ k, k < 4 → t.mem.read (a.toNat - 0x10000 + k) = some (BitVec.ofNat 8 (v.toNat / 256 ^ k))) ∧
        SameOutside (a.toNat - 0x10000) 4 s.mem t.mem) ∧
    (∀ f : Nat → Byte, s.events = .host (.read 32 a) :: rest → HoldsBytes s.mem (a.toNat - 0x10000) 4 f →
      step s = .next { s with events := rest,
                              readback := BitVec.ofNat 32 ((f 0).toNat + 256 * (f 1).toNat + 65536 * (f 2).toNat
                                            + 16777216 * (f 3).toNat) :: s.readback }) ∧
    (∀ k, k < 4 → s.mem.read (a.toNat - 0x10000 + k) = none → s.events = .host (.read 32 a) :: rest →
      step s = .fault .unwrittenRead)

/-- 70_reset_and_hazards.md R240: a host access to the MEM window while a command is pending is a fault. -/
def Obligations.MemWindowWhileBusyFaults : Prop :=
  ∀ (s : State) (a v : Word) (rest : List Event), s.pend ≠ none → 0x10000 ≤ a.toNat → a.toNat % 4 = 0 →
    a.toNat - 0x10000 + 4 ≤ s.config.memSize →
    (s.events = .host (.read 32 a) :: rest → step s = .fault .memWhileBusy) ∧
    (s.events = .host (.write 32 a v) :: rest → step s = .fault .memWhileBusy)

/-! ### Reset and the invariant -/

/-- 10_state.md R48, 70_reset_and_hazards.md R230, R232: what power-on reset leaves, read through the registers, the interrupt line and MEM. (The
value of MEM_SIZE is the model's choice, log entry 1, and is not stated.) -/
def Obligations.ResetState : Prop :=
  State.reset.statusWord = 0 ∧ State.reset.ctrlWordRead = 0 ∧ State.reset.pend = none ∧ State.reset.irq = false ∧
  State.reset.srcAddr = 0 ∧ State.reset.srcLen = 0 ∧ State.reset.auxAddr = 0 ∧ State.reset.dstAddr = 0 ∧
  State.reset.blkIdx = 0 ∧ State.reset.outLen = 0 ∧ State.reset.errPos = 0xFFFFFFFF ∧
  (∀ k : Fin 16, State.reset.keypad[k] = 0 ∧ State.reset.keymat[k] = 0 ∧ State.reset.bkmat[k] = 0) ∧
  (∀ x, State.reset.mem.read x = none)

/-- The invariant holds at reset (10_state.md R48). (The reset MEM_SIZE is the model's choice, log entry 1.) -/
def Obligations.ResetMeetsTheInvariant : Prop := StateInv State.reset

/-- The invariant is kept by every step from every state that meets it: MEM stays in canonical form inside its bounds, DONE stays
0 while a command is pending, the Base Key Matrix stays that of the padded key, OUT_LEN and ERR_POS stay what 10_state.md R33 and R34
allow. -/
def Obligations.EveryStepKeepsTheInvariant : Prop :=
  ∀ s t : State, StateInv s → step s = .next t → StateInv t
end

