-- ==== Sys2Proof/Laws/Memory.lean ====
section
/-! SUPPORT. The laws of the message memory: read after write, read outside a write, forgetting, multi-byte reads, and the
canonical form. -/

namespace Sys2Proof.Machine

/-! ### Words and their bytes -/

theorem leWord_toNat (b0 b1 b2 b3 : Byte) :
    (leWord b0 b1 b2 b3).toNat = b0.toNat + 256 * b1.toNat + 65536 * b2.toNat + 16777216 * b3.toNat := by
  have h0 := b0.isLt; have h1 := b1.isLt; have h2 := b2.isLt; have h3 := b3.isLt
  simp only [leWord, BitVec.toNat_append]
  rw [← Nat.shiftLeft_add_eq_or_of_lt h0, ← Nat.shiftLeft_add_eq_or_of_lt h1, ← Nat.shiftLeft_add_eq_or_of_lt h2]
  simp only [Nat.shiftLeft_eq]
  omega

theorem leBytes_leWord (b0 b1 b2 b3 : Byte) : leBytes (leWord b0 b1 b2 b3) = [b0, b1, b2, b3] := by
  have h0 := b0.isLt; have h1 := b1.isLt; have h2 := b2.isLt; have h3 := b3.isLt
  simp only [leBytes, List.cons.injEq, and_true]
  refine ⟨?_, ?_, ?_, ?_⟩ <;> apply BitVec.eq_of_toNat_eq <;>
    simp only [BitVec.extractLsb'_toNat, leWord_toNat, Nat.shiftRight_eq_div_pow] <;> omega

theorem leWord_leBytes (w : Word) :
    leWord (w.extractLsb' 0 8) (w.extractLsb' 8 8) (w.extractLsb' 16 8) (w.extractLsb' 24 8) = w := by
  have h := w.isLt
  apply BitVec.eq_of_toNat_eq
  simp only [leWord_toNat, BitVec.extractLsb'_toNat, Nat.shiftRight_eq_div_pow]
  omega

@[simp] theorem leBytes_length (w : Word) : (leBytes w).length = 4 := rfl

theorem leBytes_getElem? (w : Word) (k : Nat) (hk : k < 4) :
    (leBytes w)[k]? = some (BitVec.ofNat 8 (w.toNat / 256 ^ k)) := by
  have : k = 0 ∨ k = 1 ∨ k = 2 ∨ k = 3 := by omega
  rcases this with rfl | rfl | rfl | rfl <;> simp only [leBytes] <;> simp <;> apply BitVec.eq_of_toNat_eq <;>
    simp [BitVec.extractLsb'_toNat, Nat.shiftRight_eq_div_pow]

@[simp] theorem textBytes_nil : textBytes [] = [] := rfl

@[simp] theorem textBytes_cons (w : Word) (t : List Word) : textBytes (w :: t) = leBytes w ++ textBytes t := rfl

@[simp] theorem textBytes_length (t : List Word) : (textBytes t).length = 4 * t.length := by
  induction t with
  | nil => rfl
  | cons w t ih => simp [ih]; omega

/-! ### Reading one byte -/

@[simp] theorem read_nil (a : Nat) : Memory.read [] a = none := rfl

theorem read_append (m m' : Memory) (x : Nat) : Memory.read (m ++ m') x = (Memory.read m x).or (Memory.read m' x) := by
  simp only [Memory.read, List.find?_append]
  cases h : List.find? (fun c => c.1 == x) m <;> simp

theorem read_filter_pos (m : Memory) (q : Nat → Bool) (x : Nat) (h : q x = true) :
    Memory.read (m.filter fun c => q c.1) x = Memory.read m x := by
  simp only [Memory.read, List.find?_filter]
  congr 2
  funext c
  by_cases hc : c.1 = x <;> simp [hc, h]

theorem read_filter_neg (m : Memory) (q : Nat → Bool) (x : Nat) (h : q x = false) :
    Memory.read (m.filter fun c => q c.1) x = none := by
  simp only [Memory.read, List.find?_filter, Option.map_eq_none_iff, List.find?_eq_none]
  intro c _ hc
  simp only [beq_iff_eq, decide_eq_true_eq] at hc
  simp [hc.2, h] at hc

theorem read_cellsAt (a : Nat) (bs : List Byte) (x : Nat) :
    Memory.read (cellsAt a bs) x = if a ≤ x then bs[x - a]? else none := by
  induction bs generalizing a with
  | nil => simp [cellsAt]
  | cons b bs ih =>
    have hc : Memory.read (cellsAt a (b :: bs)) x = if a = x then some b else Memory.read (cellsAt (a + 1) bs) x := by
      by_cases h : a = x <;> simp [cellsAt, Memory.read, h]
    rw [hc, ih]
    by_cases h : a = x
    · subst h; simp
    · by_cases h2 : a ≤ x
      · have h3 : x - a = (x - (a + 1)) + 1 := by omega
        rw [if_neg h, if_pos (by omega : a + 1 ≤ x), if_pos h2, h3, List.getElem?_cons_succ]
      · rw [if_neg h, if_neg h2, if_neg (by omega)]

/-- Reading after a write: the written byte inside, the old byte outside. -/
theorem read_write (m : Memory) (a : Nat) (bs : List Byte) (x : Nat) :
    (m.write a bs).read x = if a ≤ x ∧ x < a + bs.length then bs[x - a]? else m.read x := by
  simp only [Memory.write, read_append, read_cellsAt]
  by_cases h1 : x < a
  · rw [read_filter_pos m (fun y => decide (y < a)) x (by simpa using h1),
      read_filter_neg m (fun y => decide (a + bs.length ≤ y)) x (by simp; omega)]
    rw [if_neg (by omega), if_neg (by omega)]; simp
  · rw [read_filter_neg m (fun y => decide (y < a)) x (by simpa using h1)]
    by_cases h2 : x < a + bs.length
    · rw [read_filter_neg m (fun y => decide (a + bs.length ≤ y)) x (by simpa using h2), if_pos (by omega), if_pos (by omega)]
      simp
    · rw [read_filter_pos m (fun y => decide (a + bs.length ≤ y)) x (by simp; omega), if_pos (by omega), if_neg (by omega),
        List.getElem?_eq_none (by omega)]
      simp

theorem read_write_inside (m : Memory) (a : Nat) (bs : List Byte) (k : Nat) (h : k < bs.length) :
    (m.write a bs).read (a + k) = some bs[k] := by
  rw [read_write, if_pos (by omega), Nat.add_sub_cancel_left, List.getElem?_eq_getElem h]

theorem read_write_outside (m : Memory) (a : Nat) (bs : List Byte) (x : Nat) (h : x < a ∨ a + bs.length ≤ x) :
    (m.write a bs).read x = m.read x := by
  rw [read_write, if_neg (by omega)]

/-- Reading after forgetting a region: nothing inside, the old byte outside. -/
theorem read_forget (m : Memory) (a n x : Nat) :
    (m.forget a n).read x = if a ≤ x ∧ x < a + n then none else m.read x := by
  by_cases h : a ≤ x ∧ x < a + n
  · rw [if_pos h]
    exact read_filter_neg m (fun y => decide (y < a) || decide (a + n ≤ y)) x (by simp; omega)
  · rw [if_neg h]
    exact read_filter_pos m (fun y => decide (y < a) || decide (a + n ≤ y)) x (by simp; omega)

/-! ### Reading sequences -/

theorem readBytes_eq_some (m : Memory) (a n : Nat) (bs : List Byte) :
    m.readBytes a n = some bs ↔ bs.length = n ∧ ∀ k, (h : k < bs.length) → m.read (a + k) = some bs[k] := by
  induction n generalizing a bs with
  | zero => cases bs <;> simp [Memory.readBytes]
  | succ n ih =>
    cases hr : m.read a with
    | none =>
      simp only [Memory.readBytes, hr, reduceCtorEq, false_iff, not_and]
      intro hl hk
      have := hk 0 (by omega)
      simp [hr] at this
    | some b =>
      cases hb : m.readBytes (a + 1) n with
      | none =>
        simp only [Memory.readBytes, hr, hb, reduceCtorEq, false_iff, not_and]
        intro hl hk
        cases bs with
        | nil => simp at hl
        | cons b' bs =>
          have : m.readBytes (a + 1) n = some bs := by
            rw [ih]
            refine ⟨by simpa using hl, fun k h => ?_⟩
            have := hk (k + 1) (by simpa using h)
            simpa [Nat.add_assoc, Nat.add_comm 1 k] using this
          simp [hb] at this
      | some rest =>
        simp only [Memory.readBytes, hr, hb, Option.some.injEq]
        have hrest := (ih (a + 1) rest).mp hb
        constructor
        · rintro rfl
          refine ⟨by simp [hrest.1], fun k h => ?_⟩
          cases k with
          | zero => simpa using hr
          | succ k =>
            have := hrest.2 k (by simpa using h)
            simpa [Nat.add_assoc, Nat.add_comm 1 k] using this
        · rintro ⟨hl, hk⟩
          cases bs with
          | nil => simp at hl
          | cons b' bs =>
            have h0 := hk 0 (by simp)
            have h1 : m.readBytes (a + 1) n = some bs := by
              rw [ih]
              refine ⟨by simpa using hl, fun k h => ?_⟩
              have := hk (k + 1) (by simpa using h)
              simpa [Nat.add_assoc, Nat.add_comm 1 k] using this
            simp [hr] at h0
            simp [hb] at h1
            simp [h0, h1]

theorem readBytes_eq_none (m : Memory) (a n : Nat) : m.readBytes a n = none ↔ ∃ k, k < n ∧ m.read (a + k) = none := by
  induction n generalizing a with
  | zero => simp [Memory.readBytes]
  | succ n ih =>
    have hstep : (∃ k, k < n + 1 ∧ m.read (a + k) = none) ↔ m.read a = none ∨ ∃ k, k < n ∧ m.read (a + 1 + k) = none := by
      constructor
      · rintro ⟨k, hk, h⟩
        cases k with
        | zero => exact .inl h
        | succ k => exact .inr ⟨k, by omega, by rwa [Nat.add_assoc, Nat.add_comm 1 k]⟩
      · rintro (h | ⟨k, hk, h⟩)
        · exact ⟨0, by omega, h⟩
        · exact ⟨k + 1, by omega, by rwa [Nat.add_comm k 1, ← Nat.add_assoc]⟩
    rw [hstep, ← ih]
    cases hr : m.read a <;> cases hb : m.readBytes (a + 1) n <;> simp [Memory.readBytes, hr, hb]

theorem readWord_eq_some (m : Memory) (a : Nat) (w : Word) :
    m.readWord a = some w ↔ ∀ k, k < 4 → m.read (a + k) = (leBytes w)[k]? := by
  constructor
  · intro h
    simp only [Memory.readWord] at h
    split at h
    next b0 b1 b2 b3 h0 h1 h2 h3 =>
      simp only [Option.some.injEq] at h
      subst h
      intro k hk
      rw [leBytes_leWord]
      have : k = 0 ∨ k = 1 ∨ k = 2 ∨ k = 3 := by omega
      rcases this with rfl | rfl | rfl | rfl <;> simpa
    next => exact absurd h (by simp)
  · intro h
    have h0 := h 0 (by omega)
    have h1 := h 1 (by omega)
    have h2 := h 2 (by omega)
    have h3 := h 3 (by omega)
    simp only [leBytes] at h0 h1 h2 h3
    simp only [Nat.add_zero, List.getElem?_cons_zero, List.getElem?_cons_succ] at h0 h1 h2 h3
    simp only [Memory.readWord, h0, h1, h2, h3, leWord_leBytes]

theorem readWord_eq_none (m : Memory) (a : Nat) : m.readWord a = none ↔ ∃ k, k < 4 ∧ m.read (a + k) = none := by
  constructor
  · intro h
    by_contra hc
    push Not at hc
    obtain ⟨b0, h0⟩ := Option.ne_none_iff_exists'.mp (hc 0 (by omega))
    obtain ⟨b1, h1⟩ := Option.ne_none_iff_exists'.mp (hc 1 (by omega))
    obtain ⟨b2, h2⟩ := Option.ne_none_iff_exists'.mp (hc 2 (by omega))
    obtain ⟨b3, h3⟩ := Option.ne_none_iff_exists'.mp (hc 3 (by omega))
    simp only [Nat.add_zero] at h0
    simp [Memory.readWord, h0, h1, h2, h3] at h
  · rintro ⟨k, hk, h⟩
    rcases hw : m.readWord a with _ | w
    · rfl
    · have := (readWord_eq_some m a w).mp hw k hk
      rw [h, eq_comm, List.getElem?_eq_none_iff, leBytes_length] at this
      omega

theorem readText_eq_some (m : Memory) (a n : Nat) (t : List Word) :
    m.readText a n = some t ↔ t.length = n ∧ ∀ k, (h : k < t.length) → m.readWord (a + 4 * k) = some t[k] := by
  induction n generalizing a t with
  | zero => cases t <;> simp [Memory.readText]
  | succ n ih =>
    have key : ∀ (w : Word) (rest : List Word), (∀ k, (h : k < (w :: rest).length) → m.readWord (a + 4 * k) = some (w :: rest)[k]) ↔
        m.readWord a = some w ∧ ∀ k, (h : k < rest.length) → m.readWord (a + 4 + 4 * k) = some rest[k] := by
      intro w rest
      constructor
      · intro h
        refine ⟨h 0 (Nat.zero_lt_succ _), fun k hk => ?_⟩
        have := h (k + 1) (by simpa using hk)
        simpa [Nat.mul_add, Nat.add_assoc, Nat.add_comm 4 (4 * k)] using this
      · rintro ⟨h0, h1⟩ k hk
        cases k with
        | zero => simpa using h0
        | succ k =>
          have := h1 k (by simpa using hk)
          simpa [Nat.mul_add, Nat.add_assoc, Nat.add_comm 4 (4 * k)] using this
    cases t with
    | nil =>
      simp only [Memory.readText]
      split <;> simp
    | cons w rest =>
      rw [key, Memory.readText]
      have := ih (a + 4) rest
      cases hw : m.readWord a with
      | none => simp
      | some w' =>
        cases hr : m.readText (a + 4) n with
        | none => simp [hr] at this ⊢; intro h _; exact this h
        | some rest' =>
          rw [hr] at this
          simp only [Option.some.injEq, List.cons.injEq, List.length_cons, Nat.add_right_cancel_iff] at this ⊢
          rw [this]; tauto

theorem readText_eq_none (m : Memory) (a n : Nat) :
    m.readText a n = none ↔ ∃ k, k < 4 * n ∧ m.read (a + k) = none := by
  induction n generalizing a with
  | zero => simp [Memory.readText]
  | succ n ih =>
    have hstep : (∃ k, k < 4 * (n + 1) ∧ m.read (a + k) = none) ↔
        (∃ k, k < 4 ∧ m.read (a + k) = none) ∨ ∃ k, k < 4 * n ∧ m.read (a + 4 + k) = none := by
      constructor
      · rintro ⟨k, hk, h⟩
        by_cases h4 : k < 4
        · exact .inl ⟨k, h4, h⟩
        · exact .inr ⟨k - 4, by omega, by rwa [show a + 4 + (k - 4) = a + k by omega]⟩
      · rintro (⟨k, hk, h⟩ | ⟨k, hk, h⟩)
        · exact ⟨k, by omega, h⟩
        · exact ⟨4 + k, by omega, by rwa [← Nat.add_assoc]⟩
    rw [hstep, ← ih, ← readWord_eq_none]
    cases hw : m.readWord a <;> cases hr : m.readText (a + 4) n <;> simp [Memory.readText, hw, hr]

/-- The bytes of character `k` of a text stand at 4k. -/
theorem textBytes_getElem? (t : List Word) (k j : Nat) (hj : j < 4) (hk : k < t.length) :
    (textBytes t)[4 * k + j]? = (leBytes t[k])[j]? := by
  induction t generalizing k with
  | nil => simp at hk
  | cons w t ih =>
    cases k with
    | zero =>
      rw [textBytes_cons, List.getElem?_append_left (by simpa using hj)]
      simp
    | succ k =>
      rw [textBytes_cons, List.getElem?_append_right (by simp; omega)]
      have := ih k (by simpa using hk)
      rw [show 4 * (k + 1) + j - (leBytes w).length = 4 * k + j by simp; omega, this]
      simp

/-- Reading back a character of a text that was written. -/
theorem readWord_write_text (m : Memory) (a : Nat) (t : List Word) (k : Nat) (h : k < t.length) :
    (m.write a (textBytes t)).readWord (a + 4 * k) = some t[k] := by
  rw [readWord_eq_some]
  intro j hj
  rw [read_write, if_pos (by simp; omega), show a + 4 * k + j - a = 4 * k + j by omega, textBytes_getElem? t k j hj h]

/-- Memories that read alike on a region give the same bytes. -/
theorem readBytes_congr {m m' : Memory} {a n : Nat} (h : ∀ k, k < n → m'.read (a + k) = m.read (a + k)) :
    m'.readBytes a n = m.readBytes a n := by
  induction n generalizing a with
  | zero => rfl
  | succ n ih =>
    have h0 := h 0 (by omega)
    have h1 := ih (a := a + 1) fun k hk => by
      have := h (k + 1) (by omega)
      rwa [Nat.add_comm k 1, ← Nat.add_assoc] at this
    simp only [Nat.add_zero] at h0
    simp only [Memory.readBytes, h0, h1]

theorem readWord_congr {m m' : Memory} {a : Nat} (h : ∀ k, k < 4 → m'.read (a + k) = m.read (a + k)) :
    m'.readWord a = m.readWord a := by
  have h0 := h 0 (by omega)
  simp only [Nat.add_zero] at h0
  simp only [Memory.readWord, h0, h 1 (by omega), h 2 (by omega), h 3 (by omega)]

/-- Memories that read alike on a region give the same text. -/
theorem readText_congr {m m' : Memory} {a n : Nat} (h : ∀ k, k < 4 * n → m'.read (a + k) = m.read (a + k)) :
    m'.readText a n = m.readText a n := by
  induction n generalizing a with
  | zero => rfl
  | succ n ih =>
    have h0 := readWord_congr (m := m) (m' := m') (a := a) fun k hk => h k (by omega)
    have h1 := ih (a := a + 4) fun k hk => by
      have := h (4 + k) (by omega)
      rwa [← Nat.add_assoc] at this
    simp only [Memory.readText, h0, h1]

/-! ### The canonical form -/

theorem cellsAt_addr {a : Nat} {bs : List Byte} {c : Host.Cell} (h : c ∈ cellsAt a bs) : a ≤ c.1 ∧ c.1 < a + bs.length := by
  induction bs generalizing a with
  | nil => simp [cellsAt] at h
  | cons b bs ih =>
    simp only [cellsAt, List.mem_cons] at h
    rcases h with rfl | h
    · simp
    · have := ih h
      simp only [List.length_cons]
      omega

theorem cellsAt_wf (a : Nat) (bs : List Byte) : (cellsAt a bs).wf := by
  induction bs generalizing a with
  | nil => exact List.Pairwise.nil
  | cons b bs ih =>
    refine List.Pairwise.cons (fun c hc => ?_) (ih (a + 1))
    have := cellsAt_addr hc
    show a < c.1
    omega

theorem wf_nil : Memory.wf [] := List.Pairwise.nil

/-- Every write keeps the canonical form. -/
theorem write_wf {m : Memory} (h : m.wf) (a : Nat) (bs : List Byte) : (m.write a bs).wf := by
  simp only [Memory.wf, Memory.write]
  rw [List.pairwise_append, List.pairwise_append]
  refine ⟨⟨h.filter _, cellsAt_wf a bs, fun c hc d hd => ?_⟩, h.filter _, fun c hc d hd => ?_⟩
  · have h1 := (List.mem_filter.mp hc).2
    have h2 := cellsAt_addr hd
    simp only [decide_eq_true_eq] at h1
    omega
  · have h2 := (List.mem_filter.mp hd).2
    simp only [decide_eq_true_eq] at h2
    rcases List.mem_append.mp hc with hc | hc
    · have h1 := (List.mem_filter.mp hc).2
      simp only [decide_eq_true_eq] at h1
      omega
    · have h1 := cellsAt_addr hc
      omega

/-- Forgetting a region keeps the canonical form. -/
theorem forget_wf {m : Memory} (h : m.wf) (a n : Nat) : (m.forget a n).wf := h.filter _

theorem within_nil (M : Nat) : Memory.within [] M := by simp

/-- A write inside MEM keeps every byte inside MEM. -/
theorem write_within {m : Memory} {M : Nat} (h : m.within M) {a : Nat} {bs : List Byte} (hb : bs.length = 0 ∨ a + bs.length ≤ M) :
    (m.write a bs).within M := by
  intro c hc
  simp only [Memory.write, List.mem_append, List.mem_filter] at hc
  rcases hc with (⟨hc, _⟩ | hc) | ⟨hc, _⟩
  · exact h c hc
  · have := cellsAt_addr hc
    omega
  · exact h c hc

theorem forget_within {m : Memory} {M : Nat} (h : m.within M) (a n : Nat) : (m.forget a n).within M :=
  fun c hc => h c (List.mem_filter.mp hc).1

end Sys2Proof.Machine
end

