-- ==== Sys2Proof/Laws/State.lean ====
section
/-! SUPPORT. What each named update of the state leaves in each field, true by unfolding. -/

namespace Sys2Proof.Machine

/-! ### complete -/

@[simp] theorem complete_config (s : State) (p : Latch) (e : ErrCode) (pos : Word) : (s.complete p e pos).config = s.config := rfl
@[simp] theorem complete_ie (s : State) (p : Latch) (e : ErrCode) (pos : Word) : (s.complete p e pos).ie = s.ie := rfl
@[simp] theorem complete_pend (s : State) (p : Latch) (e : ErrCode) (pos : Word) : (s.complete p e pos).pend = none := rfl
@[simp] theorem complete_done (s : State) (p : Latch) (e : ErrCode) (pos : Word) : (s.complete p e pos).done = true := rfl
@[simp] theorem complete_keyValid (s : State) (p : Latch) (e : ErrCode) (pos : Word) : (s.complete p e pos).keyValid = s.keyValid := rfl
@[simp] theorem complete_ovr (s : State) (p : Latch) (e : ErrCode) (pos : Word) : (s.complete p e pos).ovr = s.ovr := rfl
@[simp] theorem complete_err (s : State) (p : Latch) (e : ErrCode) (pos : Word) : (s.complete p e pos).err = e := rfl
@[simp] theorem complete_lastOp (s : State) (p : Latch) (e : ErrCode) (pos : Word) : (s.complete p e pos).lastOp = opcField p.cmd := rfl
@[simp] theorem complete_srcAddr (s : State) (p : Latch) (e : ErrCode) (pos : Word) : (s.complete p e pos).srcAddr = s.srcAddr := rfl
@[simp] theorem complete_srcLen (s : State) (p : Latch) (e : ErrCode) (pos : Word) : (s.complete p e pos).srcLen = s.srcLen := rfl
@[simp] theorem complete_auxAddr (s : State) (p : Latch) (e : ErrCode) (pos : Word) : (s.complete p e pos).auxAddr = s.auxAddr := rfl
@[simp] theorem complete_dstAddr (s : State) (p : Latch) (e : ErrCode) (pos : Word) : (s.complete p e pos).dstAddr = s.dstAddr := rfl
@[simp] theorem complete_blkIdx (s : State) (p : Latch) (e : ErrCode) (pos : Word) : (s.complete p e pos).blkIdx = s.blkIdx := rfl
@[simp] theorem complete_outLen (s : State) (p : Latch) (e : ErrCode) (pos : Word) : (s.complete p e pos).outLen = s.outLen := rfl
@[simp] theorem complete_errPos (s : State) (p : Latch) (e : ErrCode) (pos : Word) : (s.complete p e pos).errPos = pos := rfl
@[simp] theorem complete_keypad (s : State) (p : Latch) (e : ErrCode) (pos : Word) : (s.complete p e pos).keypad = s.keypad := rfl
@[simp] theorem complete_keymat (s : State) (p : Latch) (e : ErrCode) (pos : Word) : (s.complete p e pos).keymat = s.keymat := rfl
@[simp] theorem complete_bkmat (s : State) (p : Latch) (e : ErrCode) (pos : Word) : (s.complete p e pos).bkmat = s.bkmat := rfl
@[simp] theorem complete_mem (s : State) (p : Latch) (e : ErrCode) (pos : Word) : (s.complete p e pos).mem = s.mem := rfl
@[simp] theorem complete_events (s : State) (p : Latch) (e : ErrCode) (pos : Word) : (s.complete p e pos).events = s.events := rfl
@[simp] theorem complete_readback (s : State) (p : Latch) (e : ErrCode) (pos : Word) : (s.complete p e pos).readback = s.readback := rfl

/-! ### succeed -/

@[simp] theorem succeed_config (s : State) (p : Latch) : (s.succeed p).config = s.config := rfl
@[simp] theorem succeed_ie (s : State) (p : Latch) : (s.succeed p).ie = s.ie := rfl
@[simp] theorem succeed_pend (s : State) (p : Latch) : (s.succeed p).pend = none := rfl
@[simp] theorem succeed_done (s : State) (p : Latch) : (s.succeed p).done = true := rfl
@[simp] theorem succeed_keyValid (s : State) (p : Latch) : (s.succeed p).keyValid = s.keyValid := rfl
@[simp] theorem succeed_ovr (s : State) (p : Latch) : (s.succeed p).ovr = s.ovr := rfl
@[simp] theorem succeed_err (s : State) (p : Latch) : (s.succeed p).err = .noError := rfl
@[simp] theorem succeed_lastOp (s : State) (p : Latch) : (s.succeed p).lastOp = opcField p.cmd := rfl
@[simp] theorem succeed_srcAddr (s : State) (p : Latch) : (s.succeed p).srcAddr = s.srcAddr := rfl
@[simp] theorem succeed_srcLen (s : State) (p : Latch) : (s.succeed p).srcLen = s.srcLen := rfl
@[simp] theorem succeed_auxAddr (s : State) (p : Latch) : (s.succeed p).auxAddr = s.auxAddr := rfl
@[simp] theorem succeed_dstAddr (s : State) (p : Latch) : (s.succeed p).dstAddr = s.dstAddr := rfl
@[simp] theorem succeed_blkIdx (s : State) (p : Latch) : (s.succeed p).blkIdx = s.blkIdx := rfl
@[simp] theorem succeed_outLen (s : State) (p : Latch) : (s.succeed p).outLen = s.outLen := rfl
@[simp] theorem succeed_errPos (s : State) (p : Latch) : (s.succeed p).errPos = noPos := rfl
@[simp] theorem succeed_keypad (s : State) (p : Latch) : (s.succeed p).keypad = s.keypad := rfl
@[simp] theorem succeed_keymat (s : State) (p : Latch) : (s.succeed p).keymat = s.keymat := rfl
@[simp] theorem succeed_bkmat (s : State) (p : Latch) : (s.succeed p).bkmat = s.bkmat := rfl
@[simp] theorem succeed_mem (s : State) (p : Latch) : (s.succeed p).mem = s.mem := rfl
@[simp] theorem succeed_events (s : State) (p : Latch) : (s.succeed p).events = s.events := rfl
@[simp] theorem succeed_readback (s : State) (p : Latch) : (s.succeed p).readback = s.readback := rfl

/-! ### raiseError -/

@[simp] theorem raiseError_config (s : State) (p : Latch) (e : ErrCode) (pos : Option Nat) : (s.raiseError p e pos).config = s.config := rfl
@[simp] theorem raiseError_ie (s : State) (p : Latch) (e : ErrCode) (pos : Option Nat) : (s.raiseError p e pos).ie = s.ie := rfl
@[simp] theorem raiseError_pend (s : State) (p : Latch) (e : ErrCode) (pos : Option Nat) : (s.raiseError p e pos).pend = none := rfl
@[simp] theorem raiseError_done (s : State) (p : Latch) (e : ErrCode) (pos : Option Nat) : (s.raiseError p e pos).done = true := rfl
@[simp] theorem raiseError_keyValid (s : State) (p : Latch) (e : ErrCode) (pos : Option Nat) : (s.raiseError p e pos).keyValid = s.keyValid := rfl
@[simp] theorem raiseError_ovr (s : State) (p : Latch) (e : ErrCode) (pos : Option Nat) : (s.raiseError p e pos).ovr = s.ovr := rfl
@[simp] theorem raiseError_err (s : State) (p : Latch) (e : ErrCode) (pos : Option Nat) : (s.raiseError p e pos).err = e := rfl
@[simp] theorem raiseError_lastOp (s : State) (p : Latch) (e : ErrCode) (pos : Option Nat) : (s.raiseError p e pos).lastOp = opcField p.cmd := rfl
@[simp] theorem raiseError_srcAddr (s : State) (p : Latch) (e : ErrCode) (pos : Option Nat) : (s.raiseError p e pos).srcAddr = s.srcAddr := rfl
@[simp] theorem raiseError_srcLen (s : State) (p : Latch) (e : ErrCode) (pos : Option Nat) : (s.raiseError p e pos).srcLen = s.srcLen := rfl
@[simp] theorem raiseError_auxAddr (s : State) (p : Latch) (e : ErrCode) (pos : Option Nat) : (s.raiseError p e pos).auxAddr = s.auxAddr := rfl
@[simp] theorem raiseError_dstAddr (s : State) (p : Latch) (e : ErrCode) (pos : Option Nat) : (s.raiseError p e pos).dstAddr = s.dstAddr := rfl
@[simp] theorem raiseError_blkIdx (s : State) (p : Latch) (e : ErrCode) (pos : Option Nat) : (s.raiseError p e pos).blkIdx = s.blkIdx := rfl
@[simp] theorem raiseError_outLen (s : State) (p : Latch) (e : ErrCode) (pos : Option Nat) : (s.raiseError p e pos).outLen = 0 := rfl
@[simp] theorem raiseError_errPos (s : State) (p : Latch) (e : ErrCode) (pos : Option Nat) : (s.raiseError p e pos).errPos = (match pos with | some k => BitVec.ofNat 32 k | none => noPos) := rfl
@[simp] theorem raiseError_keypad (s : State) (p : Latch) (e : ErrCode) (pos : Option Nat) : (s.raiseError p e pos).keypad = s.keypad := rfl
@[simp] theorem raiseError_keymat (s : State) (p : Latch) (e : ErrCode) (pos : Option Nat) : (s.raiseError p e pos).keymat = s.keymat := rfl
@[simp] theorem raiseError_bkmat (s : State) (p : Latch) (e : ErrCode) (pos : Option Nat) : (s.raiseError p e pos).bkmat = s.bkmat := rfl
@[simp] theorem raiseError_mem (s : State) (p : Latch) (e : ErrCode) (pos : Option Nat) : (s.raiseError p e pos).mem = s.mem := rfl
@[simp] theorem raiseError_events (s : State) (p : Latch) (e : ErrCode) (pos : Option Nat) : (s.raiseError p e pos).events = s.events := rfl
@[simp] theorem raiseError_readback (s : State) (p : Latch) (e : ErrCode) (pos : Option Nat) : (s.raiseError p e pos).readback = s.readback := rfl

/-! ### storeBytes -/

@[simp] theorem storeBytes_config (s : State) (a : Nat) (bs : List Byte) : (s.storeBytes a bs).config = s.config := rfl
@[simp] theorem storeBytes_ie (s : State) (a : Nat) (bs : List Byte) : (s.storeBytes a bs).ie = s.ie := rfl
@[simp] theorem storeBytes_pend (s : State) (a : Nat) (bs : List Byte) : (s.storeBytes a bs).pend = s.pend := rfl
@[simp] theorem storeBytes_done (s : State) (a : Nat) (bs : List Byte) : (s.storeBytes a bs).done = s.done := rfl
@[simp] theorem storeBytes_keyValid (s : State) (a : Nat) (bs : List Byte) : (s.storeBytes a bs).keyValid = s.keyValid := rfl
@[simp] theorem storeBytes_ovr (s : State) (a : Nat) (bs : List Byte) : (s.storeBytes a bs).ovr = s.ovr := rfl
@[simp] theorem storeBytes_err (s : State) (a : Nat) (bs : List Byte) : (s.storeBytes a bs).err = s.err := rfl
@[simp] theorem storeBytes_lastOp (s : State) (a : Nat) (bs : List Byte) : (s.storeBytes a bs).lastOp = s.lastOp := rfl
@[simp] theorem storeBytes_srcAddr (s : State) (a : Nat) (bs : List Byte) : (s.storeBytes a bs).srcAddr = s.srcAddr := rfl
@[simp] theorem storeBytes_srcLen (s : State) (a : Nat) (bs : List Byte) : (s.storeBytes a bs).srcLen = s.srcLen := rfl
@[simp] theorem storeBytes_auxAddr (s : State) (a : Nat) (bs : List Byte) : (s.storeBytes a bs).auxAddr = s.auxAddr := rfl
@[simp] theorem storeBytes_dstAddr (s : State) (a : Nat) (bs : List Byte) : (s.storeBytes a bs).dstAddr = s.dstAddr := rfl
@[simp] theorem storeBytes_blkIdx (s : State) (a : Nat) (bs : List Byte) : (s.storeBytes a bs).blkIdx = s.blkIdx := rfl
@[simp] theorem storeBytes_outLen (s : State) (a : Nat) (bs : List Byte) : (s.storeBytes a bs).outLen = BitVec.ofNat 32 bs.length := rfl
@[simp] theorem storeBytes_errPos (s : State) (a : Nat) (bs : List Byte) : (s.storeBytes a bs).errPos = s.errPos := rfl
@[simp] theorem storeBytes_keypad (s : State) (a : Nat) (bs : List Byte) : (s.storeBytes a bs).keypad = s.keypad := rfl
@[simp] theorem storeBytes_keymat (s : State) (a : Nat) (bs : List Byte) : (s.storeBytes a bs).keymat = s.keymat := rfl
@[simp] theorem storeBytes_bkmat (s : State) (a : Nat) (bs : List Byte) : (s.storeBytes a bs).bkmat = s.bkmat := rfl
@[simp] theorem storeBytes_mem (s : State) (a : Nat) (bs : List Byte) : (s.storeBytes a bs).mem = s.mem.write a bs := rfl
@[simp] theorem storeBytes_events (s : State) (a : Nat) (bs : List Byte) : (s.storeBytes a bs).events = s.events := rfl
@[simp] theorem storeBytes_readback (s : State) (a : Nat) (bs : List Byte) : (s.storeBytes a bs).readback = s.readback := rfl

/-! ### storeText -/

@[simp] theorem storeText_config (s : State) (a : Nat) (t : List Word) : (s.storeText a t).config = s.config := rfl
@[simp] theorem storeText_ie (s : State) (a : Nat) (t : List Word) : (s.storeText a t).ie = s.ie := rfl
@[simp] theorem storeText_pend (s : State) (a : Nat) (t : List Word) : (s.storeText a t).pend = s.pend := rfl
@[simp] theorem storeText_done (s : State) (a : Nat) (t : List Word) : (s.storeText a t).done = s.done := rfl
@[simp] theorem storeText_keyValid (s : State) (a : Nat) (t : List Word) : (s.storeText a t).keyValid = s.keyValid := rfl
@[simp] theorem storeText_ovr (s : State) (a : Nat) (t : List Word) : (s.storeText a t).ovr = s.ovr := rfl
@[simp] theorem storeText_err (s : State) (a : Nat) (t : List Word) : (s.storeText a t).err = s.err := rfl
@[simp] theorem storeText_lastOp (s : State) (a : Nat) (t : List Word) : (s.storeText a t).lastOp = s.lastOp := rfl
@[simp] theorem storeText_srcAddr (s : State) (a : Nat) (t : List Word) : (s.storeText a t).srcAddr = s.srcAddr := rfl
@[simp] theorem storeText_srcLen (s : State) (a : Nat) (t : List Word) : (s.storeText a t).srcLen = s.srcLen := rfl
@[simp] theorem storeText_auxAddr (s : State) (a : Nat) (t : List Word) : (s.storeText a t).auxAddr = s.auxAddr := rfl
@[simp] theorem storeText_dstAddr (s : State) (a : Nat) (t : List Word) : (s.storeText a t).dstAddr = s.dstAddr := rfl
@[simp] theorem storeText_blkIdx (s : State) (a : Nat) (t : List Word) : (s.storeText a t).blkIdx = s.blkIdx := rfl
@[simp] theorem storeText_outLen (s : State) (a : Nat) (t : List Word) : (s.storeText a t).outLen = BitVec.ofNat 32 t.length := rfl
@[simp] theorem storeText_errPos (s : State) (a : Nat) (t : List Word) : (s.storeText a t).errPos = s.errPos := rfl
@[simp] theorem storeText_keypad (s : State) (a : Nat) (t : List Word) : (s.storeText a t).keypad = s.keypad := rfl
@[simp] theorem storeText_keymat (s : State) (a : Nat) (t : List Word) : (s.storeText a t).keymat = s.keymat := rfl
@[simp] theorem storeText_bkmat (s : State) (a : Nat) (t : List Word) : (s.storeText a t).bkmat = s.bkmat := rfl
@[simp] theorem storeText_mem (s : State) (a : Nat) (t : List Word) : (s.storeText a t).mem = s.mem.write a (textBytes t) := rfl
@[simp] theorem storeText_events (s : State) (a : Nat) (t : List Word) : (s.storeText a t).events = s.events := rfl
@[simp] theorem storeText_readback (s : State) (a : Nat) (t : List Word) : (s.storeText a t).readback = s.readback := rfl

/-! ### accept -/

@[simp] theorem accept_config (s : State) (v : Word) : (s.accept v).config = s.config := rfl
@[simp] theorem accept_ie (s : State) (v : Word) : (s.accept v).ie = s.ie := rfl
@[simp] theorem accept_pend (s : State) (v : Word) : (s.accept v).pend = some (s.latchOf v) := rfl
@[simp] theorem accept_done (s : State) (v : Word) : (s.accept v).done = false := rfl
@[simp] theorem accept_keyValid (s : State) (v : Word) : (s.accept v).keyValid = s.keyValid := rfl
@[simp] theorem accept_ovr (s : State) (v : Word) : (s.accept v).ovr = s.ovr := rfl
@[simp] theorem accept_err (s : State) (v : Word) : (s.accept v).err = s.err := rfl
@[simp] theorem accept_lastOp (s : State) (v : Word) : (s.accept v).lastOp = s.lastOp := rfl
@[simp] theorem accept_srcAddr (s : State) (v : Word) : (s.accept v).srcAddr = s.srcAddr := rfl
@[simp] theorem accept_srcLen (s : State) (v : Word) : (s.accept v).srcLen = s.srcLen := rfl
@[simp] theorem accept_auxAddr (s : State) (v : Word) : (s.accept v).auxAddr = s.auxAddr := rfl
@[simp] theorem accept_dstAddr (s : State) (v : Word) : (s.accept v).dstAddr = s.dstAddr := rfl
@[simp] theorem accept_blkIdx (s : State) (v : Word) : (s.accept v).blkIdx = s.blkIdx := rfl
@[simp] theorem accept_outLen (s : State) (v : Word) : (s.accept v).outLen = s.outLen := rfl
@[simp] theorem accept_errPos (s : State) (v : Word) : (s.accept v).errPos = s.errPos := rfl
@[simp] theorem accept_keypad (s : State) (v : Word) : (s.accept v).keypad = s.keypad := rfl
@[simp] theorem accept_keymat (s : State) (v : Word) : (s.accept v).keymat = s.keymat := rfl
@[simp] theorem accept_bkmat (s : State) (v : Word) : (s.accept v).bkmat = s.bkmat := rfl
@[simp] theorem accept_mem (s : State) (v : Word) : (s.accept v).mem = s.mem := rfl
@[simp] theorem accept_events (s : State) (v : Word) : (s.accept v).events = s.events := rfl
@[simp] theorem accept_readback (s : State) (v : Word) : (s.accept v).readback = s.readback := rfl

/-! ### returned -/

@[simp] theorem returned_config (s : State) (w : Word) : (s.returned w).config = s.config := rfl
@[simp] theorem returned_ie (s : State) (w : Word) : (s.returned w).ie = s.ie := rfl
@[simp] theorem returned_pend (s : State) (w : Word) : (s.returned w).pend = s.pend := rfl
@[simp] theorem returned_done (s : State) (w : Word) : (s.returned w).done = s.done := rfl
@[simp] theorem returned_keyValid (s : State) (w : Word) : (s.returned w).keyValid = s.keyValid := rfl
@[simp] theorem returned_ovr (s : State) (w : Word) : (s.returned w).ovr = s.ovr := rfl
@[simp] theorem returned_err (s : State) (w : Word) : (s.returned w).err = s.err := rfl
@[simp] theorem returned_lastOp (s : State) (w : Word) : (s.returned w).lastOp = s.lastOp := rfl
@[simp] theorem returned_srcAddr (s : State) (w : Word) : (s.returned w).srcAddr = s.srcAddr := rfl
@[simp] theorem returned_srcLen (s : State) (w : Word) : (s.returned w).srcLen = s.srcLen := rfl
@[simp] theorem returned_auxAddr (s : State) (w : Word) : (s.returned w).auxAddr = s.auxAddr := rfl
@[simp] theorem returned_dstAddr (s : State) (w : Word) : (s.returned w).dstAddr = s.dstAddr := rfl
@[simp] theorem returned_blkIdx (s : State) (w : Word) : (s.returned w).blkIdx = s.blkIdx := rfl
@[simp] theorem returned_outLen (s : State) (w : Word) : (s.returned w).outLen = s.outLen := rfl
@[simp] theorem returned_errPos (s : State) (w : Word) : (s.returned w).errPos = s.errPos := rfl
@[simp] theorem returned_keypad (s : State) (w : Word) : (s.returned w).keypad = s.keypad := rfl
@[simp] theorem returned_keymat (s : State) (w : Word) : (s.returned w).keymat = s.keymat := rfl
@[simp] theorem returned_bkmat (s : State) (w : Word) : (s.returned w).bkmat = s.bkmat := rfl
@[simp] theorem returned_mem (s : State) (w : Word) : (s.returned w).mem = s.mem := rfl
@[simp] theorem returned_events (s : State) (w : Word) : (s.returned w).events = s.events := rfl
@[simp] theorem returned_readback (s : State) (w : Word) : (s.returned w).readback = w :: s.readback := rfl

/-! ### withCommand -/

@[simp] theorem withCommand_config (s : State) (v : Word) : (s.withCommand v).config = s.config := rfl
@[simp] theorem withCommand_ie (s : State) (v : Word) : (s.withCommand v).ie = s.ie := rfl
@[simp] theorem withCommand_pend (s : State) (v : Word) : (s.withCommand v).pend = some (s.latchOf v) := rfl
@[simp] theorem withCommand_done (s : State) (v : Word) : (s.withCommand v).done = false := rfl
@[simp] theorem withCommand_keyValid (s : State) (v : Word) : (s.withCommand v).keyValid = s.keyValid := rfl
@[simp] theorem withCommand_ovr (s : State) (v : Word) : (s.withCommand v).ovr = s.ovr := rfl
@[simp] theorem withCommand_err (s : State) (v : Word) : (s.withCommand v).err = s.err := rfl
@[simp] theorem withCommand_lastOp (s : State) (v : Word) : (s.withCommand v).lastOp = s.lastOp := rfl
@[simp] theorem withCommand_srcAddr (s : State) (v : Word) : (s.withCommand v).srcAddr = s.srcAddr := rfl
@[simp] theorem withCommand_srcLen (s : State) (v : Word) : (s.withCommand v).srcLen = s.srcLen := rfl
@[simp] theorem withCommand_auxAddr (s : State) (v : Word) : (s.withCommand v).auxAddr = s.auxAddr := rfl
@[simp] theorem withCommand_dstAddr (s : State) (v : Word) : (s.withCommand v).dstAddr = s.dstAddr := rfl
@[simp] theorem withCommand_blkIdx (s : State) (v : Word) : (s.withCommand v).blkIdx = s.blkIdx := rfl
@[simp] theorem withCommand_outLen (s : State) (v : Word) : (s.withCommand v).outLen = s.outLen := rfl
@[simp] theorem withCommand_errPos (s : State) (v : Word) : (s.withCommand v).errPos = s.errPos := rfl
@[simp] theorem withCommand_keypad (s : State) (v : Word) : (s.withCommand v).keypad = s.keypad := rfl
@[simp] theorem withCommand_keymat (s : State) (v : Word) : (s.withCommand v).keymat = s.keymat := rfl
@[simp] theorem withCommand_bkmat (s : State) (v : Word) : (s.withCommand v).bkmat = s.bkmat := rfl
@[simp] theorem withCommand_mem (s : State) (v : Word) : (s.withCommand v).mem = s.mem := rfl
@[simp] theorem withCommand_events (s : State) (v : Word) : (s.withCommand v).events = .engine :: s.events := rfl
@[simp] theorem withCommand_readback (s : State) (v : Word) : (s.withCommand v).readback = s.readback := rfl

/-! ### writeCtrl -/

@[simp] theorem writeCtrl_config (s : State) (o d e : Bool) : (writeCtrl s o d e).config = s.config := rfl
@[simp] theorem writeCtrl_ie (s : State) (o d e : Bool) : (writeCtrl s o d e).ie = e := rfl
@[simp] theorem writeCtrl_pend (s : State) (o d e : Bool) : (writeCtrl s o d e).pend = s.pend := rfl
@[simp] theorem writeCtrl_done (s : State) (o d e : Bool) : (writeCtrl s o d e).done = (s.done && !d) := rfl
@[simp] theorem writeCtrl_keyValid (s : State) (o d e : Bool) : (writeCtrl s o d e).keyValid = s.keyValid := rfl
@[simp] theorem writeCtrl_ovr (s : State) (o d e : Bool) : (writeCtrl s o d e).ovr = (s.ovr && !o) := rfl
@[simp] theorem writeCtrl_err (s : State) (o d e : Bool) : (writeCtrl s o d e).err = s.err := rfl
@[simp] theorem writeCtrl_lastOp (s : State) (o d e : Bool) : (writeCtrl s o d e).lastOp = s.lastOp := rfl
@[simp] theorem writeCtrl_srcAddr (s : State) (o d e : Bool) : (writeCtrl s o d e).srcAddr = s.srcAddr := rfl
@[simp] theorem writeCtrl_srcLen (s : State) (o d e : Bool) : (writeCtrl s o d e).srcLen = s.srcLen := rfl
@[simp] theorem writeCtrl_auxAddr (s : State) (o d e : Bool) : (writeCtrl s o d e).auxAddr = s.auxAddr := rfl
@[simp] theorem writeCtrl_dstAddr (s : State) (o d e : Bool) : (writeCtrl s o d e).dstAddr = s.dstAddr := rfl
@[simp] theorem writeCtrl_blkIdx (s : State) (o d e : Bool) : (writeCtrl s o d e).blkIdx = s.blkIdx := rfl
@[simp] theorem writeCtrl_outLen (s : State) (o d e : Bool) : (writeCtrl s o d e).outLen = s.outLen := rfl
@[simp] theorem writeCtrl_errPos (s : State) (o d e : Bool) : (writeCtrl s o d e).errPos = s.errPos := rfl
@[simp] theorem writeCtrl_keypad (s : State) (o d e : Bool) : (writeCtrl s o d e).keypad = s.keypad := rfl
@[simp] theorem writeCtrl_keymat (s : State) (o d e : Bool) : (writeCtrl s o d e).keymat = s.keymat := rfl
@[simp] theorem writeCtrl_bkmat (s : State) (o d e : Bool) : (writeCtrl s o d e).bkmat = s.bkmat := rfl
@[simp] theorem writeCtrl_mem (s : State) (o d e : Bool) : (writeCtrl s o d e).mem = s.mem := rfl
@[simp] theorem writeCtrl_events (s : State) (o d e : Bool) : (writeCtrl s o d e).events = s.events := rfl
@[simp] theorem writeCtrl_readback (s : State) (o d e : Bool) : (writeCtrl s o d e).readback = s.readback := rfl

/-! ### softReset -/

@[simp] theorem softReset_config (s : State) : (softReset s).config = s.config := rfl
@[simp] theorem softReset_ie (s : State) : (softReset s).ie = false := rfl
@[simp] theorem softReset_pend (s : State) : (softReset s).pend = none := rfl
@[simp] theorem softReset_done (s : State) : (softReset s).done = false := rfl
@[simp] theorem softReset_keyValid (s : State) : (softReset s).keyValid = false := rfl
@[simp] theorem softReset_ovr (s : State) : (softReset s).ovr = false := rfl
@[simp] theorem softReset_err (s : State) : (softReset s).err = .noError := rfl
@[simp] theorem softReset_lastOp (s : State) : (softReset s).lastOp = 0 := rfl
@[simp] theorem softReset_srcAddr (s : State) : (softReset s).srcAddr = 0 := rfl
@[simp] theorem softReset_srcLen (s : State) : (softReset s).srcLen = 0 := rfl
@[simp] theorem softReset_auxAddr (s : State) : (softReset s).auxAddr = 0 := rfl
@[simp] theorem softReset_dstAddr (s : State) : (softReset s).dstAddr = 0 := rfl
@[simp] theorem softReset_blkIdx (s : State) : (softReset s).blkIdx = 0 := rfl
@[simp] theorem softReset_outLen (s : State) : (softReset s).outLen = 0 := rfl
@[simp] theorem softReset_errPos (s : State) : (softReset s).errPos = 0xFFFFFFFF := rfl
@[simp] theorem softReset_keypad (s : State) : (softReset s).keypad = ByteMatrix.zero := rfl
@[simp] theorem softReset_keymat (s : State) : (softReset s).keymat = ByteMatrix.zero := rfl
@[simp] theorem softReset_bkmat (s : State) : (softReset s).bkmat = ByteMatrix.zero := rfl
@[simp] theorem softReset_mem (s : State) : (softReset s).mem = memAfterReset s := rfl
@[simp] theorem softReset_events (s : State) : (softReset s).events = s.events := rfl
@[simp] theorem softReset_readback (s : State) : (softReset s).readback = s.readback := rfl

/-! ### resetWith -/

@[simp] theorem resetWith_config (c : Config) : (State.resetWith c).config = c := rfl
@[simp] theorem resetWith_ie (c : Config) : (State.resetWith c).ie = false := rfl
@[simp] theorem resetWith_pend (c : Config) : (State.resetWith c).pend = none := rfl
@[simp] theorem resetWith_done (c : Config) : (State.resetWith c).done = false := rfl
@[simp] theorem resetWith_keyValid (c : Config) : (State.resetWith c).keyValid = false := rfl
@[simp] theorem resetWith_ovr (c : Config) : (State.resetWith c).ovr = false := rfl
@[simp] theorem resetWith_err (c : Config) : (State.resetWith c).err = .noError := rfl
@[simp] theorem resetWith_lastOp (c : Config) : (State.resetWith c).lastOp = 0 := rfl
@[simp] theorem resetWith_srcAddr (c : Config) : (State.resetWith c).srcAddr = 0 := rfl
@[simp] theorem resetWith_srcLen (c : Config) : (State.resetWith c).srcLen = 0 := rfl
@[simp] theorem resetWith_auxAddr (c : Config) : (State.resetWith c).auxAddr = 0 := rfl
@[simp] theorem resetWith_dstAddr (c : Config) : (State.resetWith c).dstAddr = 0 := rfl
@[simp] theorem resetWith_blkIdx (c : Config) : (State.resetWith c).blkIdx = 0 := rfl
@[simp] theorem resetWith_outLen (c : Config) : (State.resetWith c).outLen = 0 := rfl
@[simp] theorem resetWith_errPos (c : Config) : (State.resetWith c).errPos = 0xFFFFFFFF := rfl
@[simp] theorem resetWith_keypad (c : Config) : (State.resetWith c).keypad = ByteMatrix.zero := rfl
@[simp] theorem resetWith_keymat (c : Config) : (State.resetWith c).keymat = ByteMatrix.zero := rfl
@[simp] theorem resetWith_bkmat (c : Config) : (State.resetWith c).bkmat = ByteMatrix.zero := rfl
@[simp] theorem resetWith_mem (c : Config) : (State.resetWith c).mem = [] := rfl
@[simp] theorem resetWith_events (c : Config) : (State.resetWith c).events = [] := rfl
@[simp] theorem resetWith_readback (c : Config) : (State.resetWith c).readback = [] := rfl

/-! ### The flags of an updated state -/

@[simp] theorem busy_eq (s : State) : s.busy = s.pend.isSome := rfl

@[simp] theorem irq_eq (s : State) : s.irq = (s.ie && s.done) := rfl

end Sys2Proof.Machine
end

