-- ==== Sys2Proof/Laws/Ops.lean ====
section
/-! SUPPORT. What the shared operations of a command can do: its checks, its reads, its region checks, its completion. -/

namespace Sys2Proof.Machine

/-! ### Checks and reads in a rule -/

theorem check_bind {α : Type} (b : Bool) (e : ErrCode) (f : Unit → Checked α) :
    (check b e >>= f) = if b then f () else .error (.raise e none) := by
  cases b <;> rfl

theorem orFault_bind {α β : Type} (o : Option α) (f : α → Checked β) :
    (orFault o >>= f) = match o with | some x => f x | none => .error (.fault .unwrittenRead) := by
  cases o <;> rfl

theorem ok_bind {α β : Type} (x : α) (f : α → Checked β) : ((Except.ok x : Checked α) >>= f) = f x := rfl

theorem error_bind {α β : Type} (e : Stop) (f : α → Checked β) : ((Except.error e : Checked α) >>= f) = .error e := rfl

theorem requireKey_bind {α : Type} (s : State) (f : Unit → Checked α) :
    (requireKey s >>= f) = if s.keyValid then f () else .error (.raise .noKey none) := check_bind _ _ _

theorem checkRegions_bind {α : Type} (i : Instr) (p : Latch) (s : State) (f : Unit → Checked α) :
    (checkRegions i p s >>= f) =
      if (operandRegions i p).ok s.config.memSize then f () else .error (.raise .badRegion none) := check_bind _ _ _

theorem memRead_bind {α : Type} (s : State) (a n : Nat) (f : List Byte → Checked α) :
    (memRead s a n >>= f) =
      match s.mem.readBytes a n with | some x => f x | none => .error (.fault .unwrittenRead) := by
  rw [memRead]
  cases s.mem.readBytes a n <;> rfl

theorem cpRead_bind {α : Type} (s : State) (a n : Nat) (f : List Word → Checked α) :
    (cpRead s a n >>= f) =
      match s.mem.readText a n with | some x => f x | none => .error (.fault .unwrittenRead) := by
  rw [cpRead]
  cases s.mem.readText a n <;> rfl

/-! ### Regions -/

theorem Region.valid_iff (M : Nat) (r : Region) : r.valid M = true ↔ regionValid M r.addr r.size r.align := by
  simp [Region.valid]

theorem Region.overlaps_iff (r q : Region) : r.overlaps q = true ↔ regionsOverlap r.addr r.size q.addr q.size := by
  simp [Region.overlaps]

theorem Region.overlaps_eq_false (r q : Region) : r.overlaps q = false ↔ ¬ regionsOverlap r.addr r.size q.addr q.size := by
  rw [← Region.overlaps_iff]; simp

/-- The regions of a command without a destination pass when its sources are valid. -/
theorem ok_no_dst (M : Nat) (srcs : List Region) :
    (Regions.ok M { srcs := srcs, dst := none }) = true ↔ ∀ r ∈ srcs, regionValid M r.addr r.size r.align := by
  simp [Regions.ok, Region.valid]

/-- The regions of a command with a destination pass when all are valid and the destination overlaps no source. -/
theorem ok_dst (M : Nat) (srcs : List Region) (d : Region) :
    (Regions.ok M { srcs := srcs, dst := some d }) = true ↔
      (∀ r ∈ srcs, regionValid M r.addr r.size r.align) ∧ regionValid M d.addr d.size d.align ∧
        ∀ r ∈ srcs, ¬ regionsOverlap d.addr d.size r.addr r.size := by
  simp only [Regions.ok, Bool.and_eq_true, List.all_eq_true, Region.valid_iff, Bool.not_eq_true',
    Region.overlaps_eq_false]

/-- A destination that passes lies inside MEM, or is empty. -/
theorem dst_within {M : Nat} {r : Regions} (h : r.ok M = true) {d : Region} (hd : r.dst = some d) :
    d.size = 0 ∨ d.addr + d.size ≤ M := by
  obtain ⟨srcs, dst⟩ := r
  subst hd
  have := ((ok_dst M srcs d).mp h).2.1
  omega

/-! ### Completion -/

theorem runCommand_idle (rule : Latch → State → Checked State) (s : State) (h : s.pend = none) :
    runCommand rule s = .refused .noCommandPending := by
  simp [runCommand, h]

theorem runCommand_ok {rule : Latch → State → Checked State} {s t : State} {p : Latch} (hp : s.pend = some p)
    (h : rule p s = .ok t) : runCommand rule s = .next (t.succeed p) := by
  simp [runCommand, hp, h]

theorem runCommand_raise {rule : Latch → State → Checked State} {s : State} {p : Latch} {e : ErrCode} {pos : Option Nat}
    (hp : s.pend = some p) (h : rule p s = .error (.raise e pos)) : runCommand rule s = .next (s.raiseError p e pos) := by
  simp [runCommand, hp, h]

theorem runCommand_fault {rule : Latch → State → Checked State} {s : State} {p : Latch} {f : Fault}
    (hp : s.pend = some p) (h : rule p s = .error (.fault f)) : runCommand rule s = .fault f := by
  simp [runCommand, hp, h]

/-- Everything a command that goes on can have done: its rule succeeded, or it raised an error. -/
theorem runCommand_next {rule : Latch → State → Checked State} {s t : State} (h : runCommand rule s = .next t) :
    ∃ p, s.pend = some p ∧
      ((∃ u, rule p s = .ok u ∧ t = u.succeed p) ∨
       (∃ e pos, rule p s = .error (.raise e pos) ∧ t = s.raiseError p e pos)) := by
  unfold runCommand at h
  split at h
  next => cases h
  next p hp =>
    refine ⟨p, hp, ?_⟩
    split at h
    next u hr => cases h; exact .inl ⟨u, hr, rfl⟩
    next e pos hr => cases h; exact .inr ⟨e, pos, hr, rfl⟩
    next => cases h

end Sys2Proof.Machine
end

