-- ==== Sys2Proof/Laws/Codecs.lean ====
section
/-! SUPPORT. The laws of the codec functions: lengths, elements, and when they report an error. -/

namespace Sys2Proof.Machine

/-! ### Text and bytes -/

@[simp] theorem lo8_toNat (v : Nat) : (lo8 v).toNat = v % 256 := by simp [lo8]

theorem textToBytes_ok {t : List Word} (h : ∀ c ∈ t, c.toNat ≤ 255) :
    textToBytes t = .ok (t.map fun c => lo8 c.toNat) := by
  have : t.findIdx? (fun c => decide (255 < c.toNat)) = none := by
    rw [List.findIdx?_eq_none_iff]
    intro c hc
    have := h c hc
    simp; omega
  simp [textToBytes, this]

theorem textToBytes_error {t : List Word} {k : Nat} (hk : k < t.length) (hw : 255 < t[k].toNat)
    (hb : ∀ j, (h : j < k) → t[j].toNat ≤ 255) : textToBytes t = .error (.raise .encodingError (some k)) := by
  have : t.findIdx? (fun c => decide (255 < c.toNat)) = some k := by
    rw [List.findIdx?_eq_some_iff_getElem]
    refine ⟨hk, by simpa using hw, fun j hj => ?_⟩
    have := hb j hj
    simp; omega
  simp [textToBytes, this]

/-- Everything `textToBytes` can answer. -/
theorem textToBytes_cases (t : List Word) :
    ((∀ c ∈ t, c.toNat ≤ 255) ∧ textToBytes t = .ok (t.map fun c => lo8 c.toNat)) ∨
    (∃ k, k < t.length ∧ textToBytes t = .error (.raise .encodingError (some k))) := by
  cases h : t.findIdx? (fun c => decide (255 < c.toNat)) with
  | none =>
    have h' := List.findIdx?_eq_none_iff.mp h
    have hall : ∀ c ∈ t, c.toNat ≤ 255 := fun c hc => by
      have := h' c hc
      simpa using this
    exact .inl ⟨hall, textToBytes_ok hall⟩
  | some k =>
    obtain ⟨hk, _, _⟩ := List.findIdx?_eq_some_iff_getElem.mp h
    exact .inr ⟨k, hk, by simp [textToBytes, h]⟩

theorem bytesToText_length_le (s : List Byte) : (bytesToText s).length ≤ s.length := by
  simpa [bytesToText] using (List.takeWhile_prefix (l := s) (· != 0xFF)).length_le

/-- The text of bytes whose first delimiter stands at `e`, or that have none and length `e`. -/
theorem bytesToText_of_first {s : List Byte} {e : Nat} (he : e ≤ s.length) (hb : ∀ k, (h : k < e) → s[k] ≠ 0xFF)
    (hend : e = s.length ∨ ∃ h : e < s.length, s[e] = 0xFF) :
    bytesToText s = (s.take e).map fun b => b.setWidth 32 := by
  have : s.takeWhile (· != 0xFF) = s.take e := by
    conv_lhs => rw [← List.take_append_drop e s]
    rw [List.takeWhile_append_of_pos]
    · rcases hend with rfl | ⟨h, hd⟩
      · simp
      · rw [List.drop_eq_getElem_cons h]
        simp [hd]
    · intro b hb'
      obtain ⟨k, hk, rfl⟩ := List.getElem_of_mem hb'
      have hk' : k < e := by simp at hk; omega
      simpa using hb k hk'
  rw [bytesToText, this]

/-! ### Hex -/

theorem hexDigit_toNat (d : Nat) (h : d < 16) : (hexDigit d).toNat = if d ≤ 9 then 0x30 + d else 0x61 + (d - 10) := by
  unfold hexDigit
  split <;> simp <;> omega

theorem hexVal_hexDigit (d : Nat) (h : d < 16) : hexVal (hexDigit d) = some d := by
  have := hexDigit_toNat d h
  unfold hexVal
  simp only [this]
  split <;> repeat' split
  all_goals simp; try omega

theorem hexVal_lt {c : Word} {v : Nat} (h : hexVal c = some v) : v < 16 := by
  unfold hexVal at h
  simp only at h
  repeat' split at h
  all_goals simp at h; try omega

@[simp] theorem hexEncode_nil : hexEncode [] = [] := rfl

@[simp] theorem hexEncode_cons (b : Byte) (s : List Byte) :
    hexEncode (b :: s) = hexDigit (b.toNat / 16) :: hexDigit (b.toNat % 16) :: hexEncode s := rfl

@[simp] theorem hexEncode_length (s : List Byte) : (hexEncode s).length = 2 * s.length := by
  induction s with
  | nil => rfl
  | cons b s ih => simp [ih]; omega

theorem hexEncode_getElem? (s : List Byte) (k : Nat) (h : k < s.length) :
    (hexEncode s)[2 * k]? = some (hexDigit (s[k].toNat / 16)) ∧
    (hexEncode s)[2 * k + 1]? = some (hexDigit (s[k].toNat % 16)) := by
  induction s generalizing k with
  | nil => simp at h
  | cons b s ih =>
    cases k with
    | zero => simp
    | succ k =>
      have := ih k (by simpa using h)
      simpa [Nat.mul_add] using this

theorem hexPairs_length (t : List Word) : (hexPairs t).length = t.length / 2 := by
  induction t using hexPairs.induct with
  | case1 h l rest ih =>
    simp only [hexPairs, List.length_cons, ih]
    omega
  | case2 t hne =>
    match t with
    | [] => rfl
    | [c] => simp [hexPairs]
    | h :: l :: rest => exact absurd rfl (hne h l rest)

theorem hexPairs_getElem? (t : List Word) (q : Nat) (h : 2 * q + 1 < t.length) :
    (hexPairs t)[q]? = some (lo8 ((hexVal t[2 * q]).getD 0 * 16 + (hexVal t[2 * q + 1]).getD 0)) := by
  induction q generalizing t with
  | zero =>
    match t with
    | [] => simp at h
    | [c] => simp at h
    | a :: b :: rest => simp [hexPairs]
  | succ q ih =>
    match t with
    | [] => simp at h
    | [c] => simp at h
    | a :: b :: rest =>
      have := ih rest (by simp only [List.length_cons] at h; omega)
      simpa [hexPairs, Nat.mul_add, Nat.add_assoc] using this

theorem hexDecode_odd {t : List Word} (h : t.length % 2 = 1) : hexDecode t = .error (.raise .malformedInput none) := by
  simp [hexDecode, h]

theorem hexDecode_ok {t : List Word} (h : t.length % 2 = 0) (hc : ∀ c ∈ t, (hexVal c).isSome = true) :
    hexDecode t = .ok (hexPairs t) := by
  have : t.findIdx? (fun c => (hexVal c).isNone) = none := by
    rw [List.findIdx?_eq_none_iff]
    intro c hcm
    have := hc c hcm
    cases hv : hexVal c <;> simp_all
  simp [hexDecode, h, this]

theorem hexDecode_bad {t : List Word} (h : t.length % 2 = 0) {k : Nat} (hk : k < t.length) (hb : hexVal t[k] = none)
    (hg : ∀ j, (hj : j < k) → (hexVal t[j]).isSome = true) :
    hexDecode t = .error (.raise .malformedInput (some k)) := by
  have : t.findIdx? (fun c => (hexVal c).isNone) = some k := by
    rw [List.findIdx?_eq_some_iff_getElem]
    refine ⟨hk, by simp [hb], fun j hj => ?_⟩
    have := hg j hj
    cases hv : hexVal t[j] <;> simp_all
  simp [hexDecode, h, this]

/-- Everything `hexDecode` can answer. -/
theorem hexDecode_cases (t : List Word) :
    (t.length % 2 = 1 ∧ hexDecode t = .error (.raise .malformedInput none)) ∨
    (t.length % 2 = 0 ∧ (∀ c ∈ t, (hexVal c).isSome = true) ∧ hexDecode t = .ok (hexPairs t)) ∨
    (t.length % 2 = 0 ∧ ∃ k, k < t.length ∧ hexDecode t = .error (.raise .malformedInput (some k))) := by
  by_cases hl : t.length % 2 = 1
  · exact .inl ⟨hl, hexDecode_odd hl⟩
  · have hl' : t.length % 2 = 0 := by omega
    cases h : t.findIdx? (fun c => (hexVal c).isNone) with
    | none =>
      have h' := List.findIdx?_eq_none_iff.mp h
      have hall : ∀ c ∈ t, (hexVal c).isSome = true := fun c hc => by
        have := h' c hc
        cases hv : hexVal c <;> simp_all
      exact .inr (.inl ⟨hl', hall, hexDecode_ok hl' hall⟩)
    | some k =>
      obtain ⟨hk, _, _⟩ := List.findIdx?_eq_some_iff_getElem.mp h
      exact .inr (.inr ⟨hl', k, hk, by simp [hexDecode, hl, h]⟩)

end Sys2Proof.Machine
end

