-- ==== Sys2Proof/Laws/Transform.lean ====
section
/-! SUPPORT. The laws of the matrix functions, the framing and the block transform, cell by cell and byte by byte. -/

namespace Sys2Proof.Machine

/-! ### Matrices -/

theorem ofCells_getElem (f : Fin 4 → Fin 4 → Byte) (k : Nat) (h : k < 16) :
    (ofCells f)[k] = f ⟨k / 4, by omega⟩ ⟨k % 4, by omega⟩ := by
  simp [ofCells]

theorem cell_ofCells (f : Fin 4 → Fin 4 → Byte) (i j : Fin 4) : cell (ofCells f) i j = f i j := by
  rw [cell, ofCells_getElem]
  congr 1 <;> apply Fin.ext <;> simp only <;> omega

theorem cell_div_mod (m : ByteMatrix) (k : Nat) (h : k < 16) : cell m ⟨k / 4, by omega⟩ ⟨k % 4, by omega⟩ = m[k] := by
  simp only [cell, Nat.div_add_mod]

theorem xorM_getElem (a b : ByteMatrix) (k : Nat) (h : k < 16) : (xorM a b)[k] = a[k] ^^^ b[k] := by
  rw [xorM, ofCells_getElem, cell_div_mod, cell_div_mod]

theorem blockKey_getElem (m : ByteMatrix) (idx k : Nat) (h : k < 16) : (blockKey m idx)[k] = m[k] ^^^ lo8 idx := by
  rw [blockKey, ofCells_getElem, cell_div_mod]

theorem cell_baseKey (pad : ByteMatrix) (i j : Fin 4) : cell (baseKey pad) i j = cell pad i j * cell pad j i :=
  cell_ofCells _ _ _

theorem pad16_getElem (kb : List Byte) (k : Nat) (h : k < 16) : (pad16 kb)[k] = kb.getD (k % kb.length) 0 := by
  simp [pad16]

theorem toMatrix_getElem (s : List Byte) (k : Nat) (h : k < 16) : (toMatrix s)[k] = s.getD k 0 := by
  rw [toMatrix, ofCells_getElem]
  simp only [Nat.div_add_mod]

@[simp] theorem toBytes_length (m : ByteMatrix) : (toBytes m).length = 16 := by simp [toBytes]

theorem toBytes_getElem (m : ByteMatrix) (k : Nat) (h : k < (toBytes m).length) :
    (toBytes m)[k] = m[k]'(by simpa using h) := by
  simp [toBytes]

theorem baseKey_zero : baseKey ByteMatrix.zero = ByteMatrix.zero := by decide

theorem blockKey_mod (m : ByteMatrix) (idx : Nat) : blockKey m (idx % 256) = blockKey m idx := by
  ext k h : 1
  rw [blockKey_getElem, blockKey_getElem]
  congr 1
  apply BitVec.eq_of_toNat_eq
  simp

/-! ### Blocks -/

/-- In a concatenation of pieces of 16 elements, element q is element q mod 16 of piece q div 16. -/
theorem flatten_getElem? {α : Type} (l : List (List α)) (hl : ∀ x ∈ l, x.length = 16) (q : Nat) :
    l.flatten[q]? = (l[q / 16]?).bind fun x => x[q % 16]? := by
  induction l generalizing q with
  | nil => simp
  | cons x l ih =>
    have hx := hl x (by simp)
    have ih := ih (fun y hy => hl y (by simp [hy]))
    rw [List.flatten_cons]
    by_cases h : q < 16
    · rw [List.getElem?_append_left (by omega), show q / 16 = 0 by omega, show q % 16 = q by omega]
      simp
    · rw [List.getElem?_append_right (by omega), hx, ih, show q / 16 = (q - 16) / 16 + 1 by omega,
        show q % 16 = (q - 16) % 16 by omega]
      simp

theorem flatten_length16 {α : Type} (l : List (List α)) (hl : ∀ x ∈ l, x.length = 16) : l.flatten.length = 16 * l.length := by
  induction l with
  | nil => rfl
  | cons x l ih =>
    rw [List.flatten_cons, List.length_append, ih (fun y hy => hl y (by simp [hy])), hl x (by simp)]
    simp only [List.length_cons]
    omega

@[simp] theorem transformBlock_length (m : ByteMatrix) (x : List Byte) (idx : Nat) : (transformBlock m x idx).length = 16 := by
  simp [transformBlock]

theorem transformBlock_getElem? (m : ByteMatrix) (x : List Byte) (idx k : Nat) (h : k < 16) :
    (transformBlock m x idx)[k]? = some (x.getD k 0 ^^^ (m[k] ^^^ lo8 idx)) := by
  show (toBytes (xorM (toMatrix x) (blockKey m idx)))[k]? = _
  rw [List.getElem?_eq_getElem (by simpa using h), toBytes_getElem, xorM_getElem, toMatrix_getElem, blockKey_getElem]

theorem transformBlocks_eq_flatten (m : ByteMatrix) (bl : List (List Byte)) :
    transformBlocks m bl = (bl.zipIdx.map fun xb => transformBlock m xb.1 xb.2).flatten := by
  simp [transformBlocks, List.flatMap_def]

@[simp] theorem transformBlocks_length (m : ByteMatrix) (bl : List (List Byte)) :
    (transformBlocks m bl).length = 16 * bl.length := by
  rw [transformBlocks_eq_flatten, flatten_length16]
  · simp
  · intro x hx
    obtain ⟨y, _, rfl⟩ := List.mem_map.mp hx
    simp

theorem transformBlocks_getElem? (m : ByteMatrix) (bl : List (List Byte)) (q : Nat) (h : q < 16 * bl.length) :
    (transformBlocks m bl)[q]? =
      some ((bl[q / 16]'(by omega)).getD (q % 16) 0 ^^^ keyByte m q) := by
  rw [transformBlocks_eq_flatten, flatten_getElem?]
  · have hq : q / 16 < bl.length := by omega
    rw [List.getElem?_map, List.getElem?_zipIdx, List.getElem?_eq_getElem hq]
    simp only [Option.map_some, Option.bind_some, Nat.zero_add]
    rw [transformBlock_getElem? _ _ _ _ (by omega)]
    rfl
  · intro x hx
    obtain ⟨y, _, rfl⟩ := List.mem_map.mp hx
    simp

@[simp] theorem wholeBlocks_length (s : List Byte) : (wholeBlocks s).length = s.length / 16 := by simp [wholeBlocks]

theorem wholeBlocks_getElem (s : List Byte) (b : Nat) (h : b < (wholeBlocks s).length) :
    (wholeBlocks s)[b] = (s.drop (16 * b)).take 16 := by
  simp [wholeBlocks]

theorem wholeBlocks_getD (s : List Byte) (b k : Nat) (h : b < (wholeBlocks s).length) (hk : k < 16) :
    ((wholeBlocks s)[b]).getD k 0 = s.getD (16 * b + k) 0 := by
  rw [wholeBlocks_getElem]
  simp [List.getD_eq_getElem?_getD, hk, List.getElem?_drop]

theorem wholeBlocks_all16 (s : List Byte) : ∀ x ∈ wholeBlocks s, x.length = 16 := by
  intro x hx
  obtain ⟨b, hb, rfl⟩ := List.getElem_of_mem hx
  rw [wholeBlocks_length] at hb
  simp [wholeBlocks_getElem]
  omega

theorem frameBlocks_all16 (s : List Byte) : ∀ x ∈ frameBlocks s, x.length = 16 := by
  intro x hx
  unfold frameBlocks at hx
  split at hx
  next h =>
    rcases List.mem_append.mp hx with hx | hx
    · exact wholeBlocks_all16 s x hx
    · simp only [List.mem_singleton] at hx
      subst hx
      simp
      omega
  next => exact wholeBlocks_all16 s x hx

@[simp] theorem frameBlocks_length (s : List Byte) : (frameBlocks s).length = nblocks s.length := by
  unfold frameBlocks nblocks
  split <;> split <;> simp <;> omega

/-- Byte k of block b of the framing. -/
theorem frameBlocks_getD (s : List Byte) (b k : Nat) (h : b < (frameBlocks s).length) (hk : k < 16) :
    ((frameBlocks s)[b]).getD k 0 = framedByte s.length (fun j => s.getD j 0) (16 * b + k) := by
  have hb : b < nblocks s.length := by simpa using h
  unfold nblocks at hb
  by_cases hw : b < s.length / 16
  · have h1 : (frameBlocks s)[b]? = (wholeBlocks s)[b]? := by
      unfold frameBlocks
      split
      · rw [List.getElem?_append_left (by simpa using hw)]
      · rfl
    rw [List.getElem?_eq_getElem h, List.getElem?_eq_getElem (by simpa using hw), Option.some.injEq] at h1
    rw [h1, wholeBlocks_getD s b k _ hk, framedByte, if_pos (by omega)]
  · have hlast : s.length % 16 ≠ 0 ∨ s.length = 0 := by
      by_contra hc
      split at hb <;> omega
    have hbeq : b = s.length / 16 := by split at hb <;> omega
    have h1 : (frameBlocks s)[b]? =
        some (s.drop (16 * (s.length / 16)) ++ [0xFF] ++ List.replicate (15 - s.length % 16) 0x00) := by
      unfold frameBlocks
      rw [if_pos hlast, List.getElem?_append_right (by simp [hbeq])]
      simp [hbeq]
    rw [List.getElem?_eq_getElem h, Option.some.injEq] at h1
    rw [h1, framedByte, List.getD_eq_getElem?_getD]
    have hdl : (s.drop (16 * (s.length / 16))).length = s.length % 16 := by simp; omega
    by_cases hk1 : 16 * b + k < s.length
    · rw [if_pos hk1, List.append_assoc, List.getElem?_append_left (by omega), List.getElem?_drop, hbeq,
        List.getD_eq_getElem?_getD]
    · rw [if_neg hk1, List.append_assoc, List.getElem?_append_right (by omega), hdl]
      by_cases hk2 : 16 * b + k = s.length
      · rw [if_pos hk2, show k - s.length % 16 = 0 by omega]
        simp
      · rw [if_neg hk2, show k - s.length % 16 = (k - s.length % 16 - 1) + 1 by omega]
        simp [List.getElem?_replicate]
        split <;> rfl

/-- The bytes FRAME writes. -/
theorem frameBlocks_flatten_length (s : List Byte) : (frameBlocks s).flatten.length = 16 * nblocks s.length := by
  rw [flatten_length16 _ (frameBlocks_all16 s), frameBlocks_length]

theorem frameBlocks_flatten_getElem? (s : List Byte) (q : Nat) (h : q < 16 * nblocks s.length) :
    (frameBlocks s).flatten[q]? = some (framedByte s.length (fun j => s.getD j 0) q) := by
  have hq : q / 16 < (frameBlocks s).length := by rw [frameBlocks_length]; omega
  rw [flatten_getElem? _ (frameBlocks_all16 s), List.getElem?_eq_getElem hq]
  have h16 := frameBlocks_all16 s _ (List.getElem_mem hq)
  have := frameBlocks_getD s (q / 16) (q % 16) hq (by omega)
  rw [Nat.div_add_mod, List.getD_eq_getElem?_getD, List.getElem?_eq_getElem (by omega)] at this
  rw [Option.bind_some, List.getElem?_eq_getElem (by omega), ← this, Option.getD_some]

/-- The bytes ENCRYPT converts to hex. -/
theorem encryptBytes_getElem? (m : ByteMatrix) (s : List Byte) (q : Nat) (h : q < 16 * nblocks s.length) :
    (transformBlocks m (frameBlocks s))[q]? =
      some (framedByte s.length (fun j => s.getD j 0) q ^^^ keyByte m q) := by
  rw [transformBlocks_getElem? _ _ _ (by simpa using h), frameBlocks_getD _ _ _ _ (by omega), Nat.div_add_mod]

/-- The bytes DECRYPT converts to text. -/
theorem decryptBytes_getElem? (m : ByteMatrix) (c : List Byte) (q : Nat) (h : q < 16 * (c.length / 16)) :
    (transformBlocks m (wholeBlocks c))[q]? = some (c.getD q 0 ^^^ keyByte m q) := by
  rw [transformBlocks_getElem? _ _ _ (by simpa using h), wholeBlocks_getD _ _ _ _ (by omega), Nat.div_add_mod]

end Sys2Proof.Machine
end

