-- ==== Sys2Proof/Laws/Commands.lean ====
section
/-! SUPPORT. What the commands can do: each command's rule as one equation per way it ends, and, over all commands, when a
rule raises, faults or succeeds and everything it can have changed then. -/

namespace Sys2Proof.Machine

/-- The rule that completes a command; a CTRL word has none and stands as an illegal command here. -/
def commandRule : Instr → Latch → State → Checked State
  | .nop => nopRule
  | .keyset => keysetRule
  | .bkgen => bkgenRule
  | .xorm => xormRule
  | .bxform => bxformRule
  | .frame => frameRule
  | .hexenc => hexencRule
  | .hexdec => hexdecRule
  | .txtenc => txtencRule
  | .txtdec => txtdecRule
  | .encrypt => encryptRule
  | .decrypt => decryptRule
  | .illegal _ | .srst | .doneclr _ _ | .ovrclr _ _ | .ctrlwr _ _ _ => illegalRule

/-- Every command's meaning is the engine step with its rule. -/
theorem exec_eq_runCommand {i : Instr} (h : i.port = .cmd) (s : State) : exec i s = runCommand (commandRule i) s := by
  cases i <;> first | rfl | cases h

/-! ### What a memory that holds bytes or a text reads as, and what a store leaves -/

theorem readBytes_of_holds {m : Memory} {a n : Nat} {f : Nat → Byte} (h : HoldsBytes m a n f) :
    m.readBytes a n = some ((List.range n).map f) := by
  rw [readBytes_eq_some]
  simp only [List.length_map, List.length_range, true_and]
  intro k hk
  simp [h k hk]

theorem readWord_of_holds {m : Memory} {a : Nat} {f : Nat → Byte} (h : HoldsBytes m a 4 f) :
    m.readWord a = some (leWord (f 0) (f 1) (f 2) (f 3)) := by
  have h0 := h 0 (by omega)
  rw [Nat.add_zero] at h0
  rw [Memory.readWord, h0, h 1 (by omega), h 2 (by omega), h 3 (by omega)]

theorem readText_of_holds {m : Memory} {a n : Nat} {f : Nat → Word} (h : HoldsText m a n f) :
    m.readText a n = some ((List.range n).map f) := by
  rw [readText_eq_some]
  simp only [List.length_map, List.length_range, true_and]
  intro k hk
  simp [h k hk]

theorem completed_storeBytes {s : State} {p : Latch} {a n : Nat} {bs : List Byte} (h : bs.length = n) :
    Completed p n s ((s.storeBytes a bs).succeed p) := by
  subst h
  rfl

theorem completed_storeText {s : State} {p : Latch} {a n : Nat} {t : List Word} (h : t.length = n) :
    Completed p n s ((s.storeText a t).succeed p) := by
  subst h
  rfl

/-! ### Each rule when its checks pass -/

theorem keysetRule_ok {p : Latch} {s : State} {t : List Word} {kb : List Byte}
    (hr : (operandRegions .keyset p).ok s.config.memSize = true) (hn : p.srcLen.toNat ≠ 0)
    (ht : s.mem.readText p.srcAddr.toNat p.srcLen.toNat = some t) (hb : textToBytes t = .ok kb) :
    keysetRule p s = .ok { s with keypad := pad16 kb, keymat := baseKey (pad16 kb), keyValid := true, outLen := 0 } := by
  have hn' : (p.srcLen != 0) = true := by simpa [← BitVec.toNat_inj] using hn
  simp only [keysetRule, checkRegions_bind, check_bind, cpRead_bind, hr, hn', ht, hb, ok_bind, if_true]

theorem bkgenRule_ok {p : Latch} {s : State} (hk : s.keyValid = true) :
    bkgenRule p s = .ok { s with bkmat := blockKey s.keymat p.blkIdx.toNat, outLen := 0 } := by
  simp only [bkgenRule, requireKey_bind, hk, if_true]

theorem xormRule_ok {p : Latch} {s : State} {a b : List Byte} (hr : (operandRegions .xorm p).ok s.config.memSize = true)
    (ha : s.mem.readBytes p.srcAddr.toNat 16 = some a) (hb : s.mem.readBytes p.auxAddr.toNat 16 = some b) :
    xormRule p s = .ok (s.storeBytes p.dstAddr.toNat (toBytes (xorM (toMatrix a) (toMatrix b)))) := by
  simp only [xormRule, checkRegions_bind, memRead_bind, hr, ha, hb, if_true]

theorem bxformRule_ok {p : Latch} {s : State} {x : List Byte} (hk : s.keyValid = true)
    (hr : (operandRegions .bxform p).ok s.config.memSize = true) (hx : s.mem.readBytes p.srcAddr.toNat 16 = some x) :
    bxformRule p s = .ok { s.storeBytes p.dstAddr.toNat (transformBlock s.keymat x p.blkIdx.toNat) with
      bkmat := blockKey s.keymat p.blkIdx.toNat, blkIdx := p.blkIdx + 1 } := by
  simp only [bxformRule, requireKey_bind, checkRegions_bind, memRead_bind, hk, hr, hx, if_true]

theorem frameRule_ok {p : Latch} {s : State} {b : List Byte} (hr : (operandRegions .frame p).ok s.config.memSize = true)
    (hb : s.mem.readBytes p.srcAddr.toNat p.srcLen.toNat = some b) :
    frameRule p s = .ok (s.storeBytes p.dstAddr.toNat (frameBlocks b).flatten) := by
  simp only [frameRule, checkRegions_bind, memRead_bind, hr, hb, if_true]

theorem hexencRule_ok {p : Latch} {s : State} {b : List Byte} (hr : (operandRegions .hexenc p).ok s.config.memSize = true)
    (hb : s.mem.readBytes p.srcAddr.toNat p.srcLen.toNat = some b) :
    hexencRule p s = .ok (s.storeText p.dstAddr.toNat (hexEncode b)) := by
  simp only [hexencRule, checkRegions_bind, memRead_bind, hr, hb, if_true]

theorem txtdecRule_ok {p : Latch} {s : State} {b : List Byte} (hr : (operandRegions .txtdec p).ok s.config.memSize = true)
    (hb : s.mem.readBytes p.srcAddr.toNat p.srcLen.toNat = some b) :
    txtdecRule p s = .ok (s.storeText p.dstAddr.toNat (bytesToText b)) := by
  simp only [txtdecRule, checkRegions_bind, memRead_bind, hr, hb, if_true]

/-- HEXDEC once its text is read: what hexDecode answers decides. -/
theorem hexdecRule_read {p : Latch} {s : State} {t : List Word} (hr : (operandRegions .hexdec p).ok s.config.memSize = true)
    (ht : s.mem.readText p.srcAddr.toNat p.srcLen.toNat = some t) :
    hexdecRule p s = hexDecode t >>= fun b => .ok (s.storeBytes p.dstAddr.toNat b) := by
  simp only [hexdecRule, checkRegions_bind, cpRead_bind, hr, ht, if_true]

/-- TXTENC once its text is read: what textToBytes answers decides. -/
theorem txtencRule_read {p : Latch} {s : State} {t : List Word} (hr : (operandRegions .txtenc p).ok s.config.memSize = true)
    (ht : s.mem.readText p.srcAddr.toNat p.srcLen.toNat = some t) :
    txtencRule p s = textToBytes t >>= fun b => .ok (s.storeBytes p.dstAddr.toNat b) := by
  simp only [txtencRule, checkRegions_bind, cpRead_bind, hr, ht, if_true]

/-- ENCRYPT once its text is read: what textToBytes answers decides. -/
theorem encryptRule_read {p : Latch} {s : State} {t : List Word} (hk : s.keyValid = true)
    (hr : (operandRegions .encrypt p).ok s.config.memSize = true)
    (ht : s.mem.readText p.srcAddr.toNat p.srcLen.toNat = some t) :
    encryptRule p s = textToBytes t >>= fun b =>
      .ok (s.storeText p.dstAddr.toNat (hexEncode (transformBlocks s.keymat (frameBlocks b)))) := by
  simp only [encryptRule, requireKey_bind, checkRegions_bind, cpRead_bind, hk, hr, ht, if_true]

/-- DECRYPT once its text is read: what hexDecode answers decides, then the byte count. -/
theorem decryptRule_read {p : Latch} {s : State} {t : List Word} (hk : s.keyValid = true)
    (hr : (operandRegions .decrypt p).ok s.config.memSize = true)
    (ht : s.mem.readText p.srcAddr.toNat p.srcLen.toNat = some t) :
    decryptRule p s = hexDecode t >>= fun c =>
      if (p.srcLen.toNat / 2 != 0 && p.srcLen.toNat / 2 % 16 == 0) = true then
        .ok (s.storeText p.dstAddr.toNat (bytesToText (transformBlocks s.keymat (wholeBlocks c))))
      else .error (.raise .malformedInput none) := by
  simp only [decryptRule, requireKey_bind, checkRegions_bind, cpRead_bind, check_bind, hk, hr, ht, if_true]

/-- KEYSET once its text is read: what textToBytes answers decides. -/
theorem keysetRule_read {p : Latch} {s : State} {t : List Word}
    (hr : (operandRegions .keyset p).ok s.config.memSize = true) (hn : p.srcLen.toNat ≠ 0)
    (ht : s.mem.readText p.srcAddr.toNat p.srcLen.toNat = some t) :
    keysetRule p s = textToBytes t >>= fun kb =>
      .ok { s with keypad := pad16 kb, keymat := baseKey (pad16 kb), keyValid := true, outLen := 0 } := by
  have hn' : (p.srcLen != 0) = true := by simpa [← BitVec.toNat_inj] using hn
  simp only [keysetRule, checkRegions_bind, check_bind, cpRead_bind, hr, hn', ht, if_true]

/-! ### When a rule raises or faults -/

theorem rule_noKey {i : Instr} (h : needsKey i = true) (p : Latch) {s : State} (hk : s.keyValid = false) :
    commandRule i p s = .error (.raise .noKey none) := by
  cases i <;> simp [needsKey] at h <;>
    simp [commandRule, bkgenRule, bxformRule, encryptRule, decryptRule, requireKey_bind, hk]

theorem rule_badRegion {i : Instr} (hi : i.port = .cmd) {p : Latch} {s : State} (hk : needsKey i = true → s.keyValid = true)
    (hr : (operandRegions i p).ok s.config.memSize = false) : commandRule i p s = .error (.raise .badRegion none) := by
  cases i <;> first
    | (cases hi; done)
    | (simp [operandRegions, Regions.ok] at hr; done)
    | simp only [needsKey] at hk
      simp [commandRule, keysetRule, xormRule, bxformRule, frameRule, hexencRule, hexdecRule, txtencRule, txtdecRule,
        encryptRule, decryptRule, requireKey_bind, checkRegions_bind, hk, hr]

/-- The text regions of 30_encoding.md R74 that a command reads as a text. -/
theorem sourcesWritten_text {i : Instr} {p : Latch} (hs : (operandRegions i p).srcs = [textRegion p.srcAddr p.srcLen.toNat])
    (m : Memory) : SourcesWritten i p m ↔ ∃ t, m.readText p.srcAddr.toNat p.srcLen.toNat = some t := by
  rw [← Option.isSome_iff_exists, Option.isSome_iff_ne_none, Ne, readText_eq_none]
  simp [SourcesWritten, hs, textRegion, Option.isSome_iff_ne_none]

theorem sourcesWritten_bytes {i : Instr} {p : Latch} {n : Nat} (hs : (operandRegions i p).srcs = [byteRegion p.srcAddr n])
    (m : Memory) : SourcesWritten i p m ↔ ∃ b, m.readBytes p.srcAddr.toNat n = some b := by
  rw [← Option.isSome_iff_exists, Option.isSome_iff_ne_none, Ne, readBytes_eq_none]
  simp [SourcesWritten, hs, byteRegion, Option.isSome_iff_ne_none]

theorem sourcesWritten_xorm {p : Latch} (m : Memory) :
    SourcesWritten .xorm p m ↔
      (∃ a, m.readBytes p.srcAddr.toNat 16 = some a) ∧ ∃ b, m.readBytes p.auxAddr.toNat 16 = some b := by
  rw [← Option.isSome_iff_exists, ← Option.isSome_iff_exists, Option.isSome_iff_ne_none, Option.isSome_iff_ne_none, Ne, Ne,
    readBytes_eq_none, readBytes_eq_none]
  simp [SourcesWritten, operandRegions, byteRegion, Option.isSome_iff_ne_none]

/-- A rule faults only by reading an unwritten byte. -/
theorem rule_fault {i : Instr} {p : Latch} {s : State} {f : Fault} (h : commandRule i p s = .error (.fault f)) :
    f = .unwrittenRead ∧ readsMem i = true ∧ (needsKey i = true → s.keyValid = true) ∧
      (operandRegions i p).ok s.config.memSize = true ∧ ¬ SourcesWritten i p s.mem := by
  cases i with
  | nop => cases h
  | illegal w => cases h
  | srst => cases h
  | doneclr o e => cases h
  | ovrclr d e => cases h
  | ctrlwr o d e => cases h
  | bkgen =>
    simp only [commandRule, bkgenRule, requireKey_bind] at h
    split at h <;> cases h
  | keyset =>
    rw [sourcesWritten_text rfl]
    simp only [commandRule, keysetRule, checkRegions_bind, check_bind, cpRead_bind] at h
    split at h <;> [skip; cases h]
    split at h <;> [skip; cases h]
    split at h
    next t ht =>
      rcases textToBytes_cases t with ⟨_, hb⟩ | ⟨k, _, hb⟩ <;> rw [hb] at h <;> cases h
    next ht => cases h; simp_all [readsMem, needsKey]
  | xorm =>
    rw [sourcesWritten_xorm]
    simp only [commandRule, xormRule, checkRegions_bind, memRead_bind] at h
    split at h <;> [skip; cases h]
    split at h
    · split at h
      · cases h
      · cases h; simp_all [readsMem, needsKey]
    · cases h; simp_all [readsMem, needsKey]
  | bxform =>
    rw [sourcesWritten_bytes rfl]
    simp only [commandRule, bxformRule, requireKey_bind, checkRegions_bind, memRead_bind] at h
    split at h <;> [skip; cases h]
    split at h <;> [skip; cases h]
    split at h
    · cases h
    · cases h; simp_all [readsMem, needsKey]
  | frame =>
    rw [sourcesWritten_bytes rfl]
    simp only [commandRule, frameRule, checkRegions_bind, memRead_bind] at h
    split at h <;> [skip; cases h]
    split at h
    · cases h
    · cases h; simp_all [readsMem, needsKey]
  | hexenc =>
    rw [sourcesWritten_bytes rfl]
    simp only [commandRule, hexencRule, checkRegions_bind, memRead_bind] at h
    split at h <;> [skip; cases h]
    split at h
    · cases h
    · cases h; simp_all [readsMem, needsKey]
  | txtdec =>
    rw [sourcesWritten_bytes rfl]
    simp only [commandRule, txtdecRule, checkRegions_bind, memRead_bind] at h
    split at h <;> [skip; cases h]
    split at h
    · cases h
    · cases h; simp_all [readsMem, needsKey]
  | hexdec =>
    rw [sourcesWritten_text rfl]
    simp only [commandRule, hexdecRule, checkRegions_bind, cpRead_bind] at h
    split at h <;> [skip; cases h]
    split at h
    next t ht =>
      rcases hexDecode_cases t with ⟨_, hb⟩ | ⟨_, _, hb⟩ | ⟨_, k, _, hb⟩ <;> rw [hb] at h <;> cases h
    next ht => cases h; simp_all [readsMem, needsKey]
  | txtenc =>
    rw [sourcesWritten_text rfl]
    simp only [commandRule, txtencRule, checkRegions_bind, cpRead_bind] at h
    split at h <;> [skip; cases h]
    split at h
    next t ht =>
      rcases textToBytes_cases t with ⟨_, hb⟩ | ⟨k, _, hb⟩ <;> rw [hb] at h <;> cases h
    next ht => cases h; simp_all [readsMem, needsKey]
  | encrypt =>
    rw [sourcesWritten_text rfl]
    simp only [commandRule, encryptRule, requireKey_bind, checkRegions_bind, cpRead_bind] at h
    split at h <;> [skip; cases h]
    split at h <;> [skip; cases h]
    split at h
    next t ht =>
      rcases textToBytes_cases t with ⟨_, hb⟩ | ⟨k, _, hb⟩ <;> rw [hb] at h <;> cases h
    next ht => cases h; simp_all [readsMem, needsKey]
  | decrypt =>
    rw [sourcesWritten_text rfl]
    simp only [commandRule, decryptRule, requireKey_bind, checkRegions_bind, cpRead_bind, check_bind] at h
    split at h <;> [skip; cases h]
    split at h <;> [skip; cases h]
    split at h
    next t ht =>
      rcases hexDecode_cases t with ⟨_, hb⟩ | ⟨_, _, hb⟩ | ⟨_, k, _, hb⟩ <;> rw [hb] at h
      · cases h
      · rw [ok_bind] at h
        split at h <;> cases h
      · cases h
    next ht => cases h; simp_all [readsMem, needsKey]

/-! ### What a rule can do -/

/-- What a rule that raises an error can say: the error is one, and a position is that of a character of the source text,
so it lies inside MEM. -/
theorem rule_raise {i : Instr} {p : Latch} {s : State} {e : ErrCode} {pos : Option Nat}
    (h : commandRule i p s = .error (.raise e pos)) :
    e ≠ .noError ∧ ∀ k, pos = some k → (e = .encodingError ∨ e = .malformedInput) ∧ k < s.config.memSize := by
  have inMem : ∀ {t : List Word} {k : Nat}, regionValid s.config.memSize p.srcAddr.toNat (4 * p.srcLen.toNat) 4 →
      s.mem.readText p.srcAddr.toNat p.srcLen.toNat = some t → k < t.length → k < s.config.memSize := by
    intro t k hv ht hk
    have := ((readText_eq_some _ _ _ _).mp ht).1
    unfold regionValid at hv
    omega
  have srcValid : ∀ {i : Instr}, (operandRegions i p).srcs = [textRegion p.srcAddr p.srcLen.toNat] →
      (operandRegions i p).ok s.config.memSize = true →
      regionValid s.config.memSize p.srcAddr.toNat (4 * p.srcLen.toNat) 4 := by
    intro i hs hr
    have := (Bool.and_eq_true _ _ ▸ hr : _ ∧ _).1
    rw [hs] at this
    simp only [List.all_cons, List.all_nil, Bool.and_true, Region.valid_iff] at this
    exact this
  cases i with
  | nop => cases h
  | illegal w => cases h; simp
  | srst => cases h; simp
  | doneclr o e => cases h; simp
  | ovrclr d e => cases h; simp
  | ctrlwr o d e => cases h; simp
  | bkgen =>
    simp only [commandRule, bkgenRule, requireKey_bind] at h
    split at h <;> cases h
    simp
  | keyset =>
    simp only [commandRule, keysetRule, checkRegions_bind, check_bind, cpRead_bind] at h
    split at h <;> [skip; (cases h; simp)]
    next hr =>
    split at h <;> [skip; (cases h; simp)]
    split at h <;> [skip; cases h]
    next t ht =>
    rcases textToBytes_cases t with ⟨_, hb⟩ | ⟨k, hk, hb⟩ <;> rw [hb] at h <;> cases h
    exact ⟨by simp, fun k' hk' => ⟨.inl rfl, by cases hk'; exact inMem (srcValid rfl hr) ht hk⟩⟩
  | xorm =>
    simp only [commandRule, xormRule, checkRegions_bind, memRead_bind] at h
    split at h <;> [skip; (cases h; simp)]
    split at h <;> [skip; cases h]
    split at h <;> cases h
  | bxform =>
    simp only [commandRule, bxformRule, requireKey_bind, checkRegions_bind, memRead_bind] at h
    split at h <;> [skip; (cases h; simp)]
    split at h <;> [skip; (cases h; simp)]
    split at h <;> cases h
  | frame =>
    simp only [commandRule, frameRule, checkRegions_bind, memRead_bind] at h
    split at h <;> [skip; (cases h; simp)]
    split at h <;> cases h
  | hexenc =>
    simp only [commandRule, hexencRule, checkRegions_bind, memRead_bind] at h
    split at h <;> [skip; (cases h; simp)]
    split at h <;> cases h
  | txtdec =>
    simp only [commandRule, txtdecRule, checkRegions_bind, memRead_bind] at h
    split at h <;> [skip; (cases h; simp)]
    split at h <;> cases h
  | hexdec =>
    simp only [commandRule, hexdecRule, checkRegions_bind, cpRead_bind] at h
    split at h <;> [skip; (cases h; simp)]
    next hr =>
    split at h <;> [skip; cases h]
    next t ht =>
    rcases hexDecode_cases t with ⟨_, hb⟩ | ⟨_, _, hb⟩ | ⟨_, k, hk, hb⟩ <;> rw [hb] at h <;> cases h
    · simp
    · exact ⟨by simp, fun k' hk' => ⟨.inr rfl, by cases hk'; exact inMem (srcValid rfl hr) ht hk⟩⟩
  | txtenc =>
    simp only [commandRule, txtencRule, checkRegions_bind, cpRead_bind] at h
    split at h <;> [skip; (cases h; simp)]
    next hr =>
    split at h <;> [skip; cases h]
    next t ht =>
    rcases textToBytes_cases t with ⟨_, hb⟩ | ⟨k, hk, hb⟩ <;> rw [hb] at h <;> cases h
    exact ⟨by simp, fun k' hk' => ⟨.inl rfl, by cases hk'; exact inMem (srcValid rfl hr) ht hk⟩⟩
  | encrypt =>
    simp only [commandRule, encryptRule, requireKey_bind, checkRegions_bind, cpRead_bind] at h
    split at h <;> [skip; (cases h; simp)]
    split at h <;> [skip; (cases h; simp)]
    next hr =>
    split at h <;> [skip; cases h]
    next t ht =>
    rcases textToBytes_cases t with ⟨_, hb⟩ | ⟨k, hk, hb⟩ <;> rw [hb] at h <;> cases h
    exact ⟨by simp, fun k' hk' => ⟨.inl rfl, by cases hk'; exact inMem (srcValid rfl hr) ht hk⟩⟩
  | decrypt =>
    simp only [commandRule, decryptRule, requireKey_bind, checkRegions_bind, cpRead_bind, check_bind] at h
    split at h <;> [skip; (cases h; simp)]
    split at h <;> [skip; (cases h; simp)]
    next hr =>
    split at h <;> [skip; cases h]
    next t ht =>
    rcases hexDecode_cases t with ⟨_, hb⟩ | ⟨_, _, hb⟩ | ⟨_, k, hk, hb⟩ <;> rw [hb] at h
    · cases h; simp
    · rw [ok_bind] at h
      split at h <;> cases h
      simp
    · cases h
      exact ⟨by simp, fun k' hk' => ⟨.inr rfl, by cases hk'; exact inMem (srcValid rfl hr) ht hk⟩⟩

/-- Everything a command whose rule succeeds can have changed, before the completion fields. -/
structure CommandEffect (i : Instr) (p : Latch) (s u : State) : Prop where
  keyed : needsKey i = true → s.keyValid = true
  regions : (operandRegions i p).ok s.config.memSize = true
  frame : u = { s with mem := u.mem, outLen := u.outLen, keypad := u.keypad, keymat := u.keymat, keyValid := u.keyValid,
                       bkmat := u.bkmat, blkIdx := u.blkIdx }
  key : (u.keypad = s.keypad ∧ u.keymat = s.keymat ∧ u.keyValid = s.keyValid) ∨
    (i = .keyset ∧ u.keyValid = true ∧ u.keymat = baseKey u.keypad)
  bkmat : u.bkmat = s.bkmat ∨ ((i = .bkgen ∨ i = .bxform) ∧ u.bkmat = blockKey s.keymat p.blkIdx.toNat)
  blkIdx : (i ≠ .bxform ∧ u.blkIdx = s.blkIdx) ∨ (i = .bxform ∧ u.blkIdx = p.blkIdx + 1)
  mem : (u.mem = s.mem ∧ u.outLen = 0) ∨
    ∃ d bs, (operandRegions i p).dst = some d ∧ bs.length ≤ d.size ∧ u.mem = s.mem.write d.addr bs ∧
      u.outLen.toNat ≤ bs.length

/-- The effect of a rule that only stores in its destination. -/
theorem effect_of_store {i : Instr} {p : Latch} {s u : State} {d : Region} {bs : List Byte} {n : Nat}
    (hk : needsKey i = true → s.keyValid = true) (hr : (operandRegions i p).ok s.config.memSize = true) (hi : i ≠ .bxform)
    (hd : (operandRegions i p).dst = some d) (hu : u = { s with mem := s.mem.write d.addr bs, outLen := BitVec.ofNat 32 n })
    (hl : bs.length ≤ d.size) (hn : n ≤ bs.length) : CommandEffect i p s u := by
  subst hu
  refine ⟨hk, hr, rfl, .inl ⟨rfl, rfl, rfl⟩, .inl rfl, .inl ⟨hi, rfl⟩, .inr ⟨d, bs, hd, hl, rfl, ?_⟩⟩
  exact Nat.le_trans (by rw [BitVec.toNat_ofNat]; exact Nat.mod_le _ _) hn

/-- What a rule that succeeds can have done, for every command. -/
theorem rule_ok {i : Instr} {p : Latch} {s u : State} (h : commandRule i p s = .ok u) : CommandEffect i p s u := by
  cases i with
  | nop =>
    cases h
    exact ⟨by simp [needsKey], by simp [operandRegions, Regions.ok], rfl, .inl ⟨rfl, rfl, rfl⟩, .inl rfl,
      .inl ⟨by simp, rfl⟩, .inl ⟨rfl, rfl⟩⟩
  | illegal w => cases h
  | srst => cases h
  | doneclr o e => cases h
  | ovrclr d e => cases h
  | ctrlwr o d e => cases h
  | bkgen =>
    simp only [commandRule, bkgenRule, requireKey_bind] at h
    split at h <;> cases h
    next hk =>
    exact ⟨fun _ => hk, by simp [operandRegions, Regions.ok], rfl, .inl ⟨rfl, rfl, rfl⟩, .inr ⟨.inl rfl, rfl⟩,
      .inl ⟨by simp, rfl⟩, .inl ⟨rfl, rfl⟩⟩
  | keyset =>
    simp only [commandRule, keysetRule, checkRegions_bind, check_bind, cpRead_bind] at h
    split at h <;> [skip; cases h]
    next hr =>
    split at h <;> [skip; cases h]
    split at h <;> [skip; cases h]
    next t ht =>
    rcases textToBytes_cases t with ⟨_, hb⟩ | ⟨k, hk, hb⟩ <;> rw [hb] at h <;> cases h
    exact ⟨by simp [needsKey], hr, rfl, .inr ⟨rfl, rfl, rfl⟩, .inl rfl, .inl ⟨by simp, rfl⟩, .inl ⟨rfl, rfl⟩⟩
  | xorm =>
    simp only [commandRule, xormRule, checkRegions_bind, memRead_bind] at h
    split at h <;> [skip; cases h]
    next hr =>
    split at h <;> [skip; cases h]
    split at h <;> cases h
    exact effect_of_store (by simp [needsKey]) hr (by simp) rfl rfl (by simp [byteRegion]) (le_refl _)
  | bxform =>
    simp only [commandRule, bxformRule, requireKey_bind, checkRegions_bind, memRead_bind] at h
    split at h <;> [skip; cases h]
    next hk =>
    split at h <;> [skip; cases h]
    next hr =>
    split at h <;> cases h
    next x hx =>
    refine ⟨fun _ => hk, hr, by simp only [State.storeBytes], .inl (by simp), .inr ⟨.inr rfl, by simp⟩, .inr ⟨rfl, by simp⟩,
      .inr ⟨byteRegion p.dstAddr 16, transformBlock s.keymat x p.blkIdx.toNat, rfl, ?_, by simp [byteRegion], ?_⟩⟩
    · rw [transformBlock_length]
      exact le_refl _
    · simp only [storeBytes_outLen, transformBlock_length]
      decide
  | frame =>
    simp only [commandRule, frameRule, checkRegions_bind, memRead_bind] at h
    split at h <;> [skip; cases h]
    next hr =>
    split at h <;> cases h
    next b hb =>
    have hl := ((readBytes_eq_some _ _ _ _).mp hb).1
    exact effect_of_store (by simp [needsKey]) hr (by simp) rfl rfl (by rw [frameBlocks_flatten_length, hl]; exact le_refl _)
      (le_refl _)
  | hexenc =>
    simp only [commandRule, hexencRule, checkRegions_bind, memRead_bind] at h
    split at h <;> [skip; cases h]
    next hr =>
    split at h <;> cases h
    next b hb =>
    have hl := ((readBytes_eq_some _ _ _ _).mp hb).1
    exact effect_of_store (by simp [needsKey]) hr (by simp) rfl rfl (by simp [textRegion, hl]) (by simp; omega)
  | txtdec =>
    simp only [commandRule, txtdecRule, checkRegions_bind, memRead_bind] at h
    split at h <;> [skip; cases h]
    next hr =>
    split at h <;> cases h
    next b hb =>
    have hl := ((readBytes_eq_some _ _ _ _).mp hb).1
    have hle := bytesToText_length_le b
    exact effect_of_store (by simp [needsKey]) hr (by simp) rfl rfl (by simp [textRegion]; omega) (by simp; omega)
  | hexdec =>
    simp only [commandRule, hexdecRule, checkRegions_bind, cpRead_bind] at h
    split at h <;> [skip; cases h]
    next hr =>
    split at h <;> [skip; cases h]
    next t ht =>
    have hl := ((readText_eq_some _ _ _ _).mp ht).1
    rcases hexDecode_cases t with ⟨_, hb⟩ | ⟨_, _, hb⟩ | ⟨_, k, hk, hb⟩ <;> rw [hb] at h <;> cases h
    exact effect_of_store (by simp [needsKey]) hr (by simp) rfl rfl (by simp [byteRegion, hexPairs_length, hl]) (le_refl _)
  | txtenc =>
    simp only [commandRule, txtencRule, checkRegions_bind, cpRead_bind] at h
    split at h <;> [skip; cases h]
    next hr =>
    split at h <;> [skip; cases h]
    next t ht =>
    have hl := ((readText_eq_some _ _ _ _).mp ht).1
    rcases textToBytes_cases t with ⟨_, hb⟩ | ⟨k, hk, hb⟩ <;> rw [hb] at h <;> cases h
    exact effect_of_store (by simp [needsKey]) hr (by simp) rfl rfl (by simp [byteRegion, hl]) (le_refl _)
  | encrypt =>
    simp only [commandRule, encryptRule, requireKey_bind, checkRegions_bind, cpRead_bind] at h
    split at h <;> [skip; cases h]
    next hk =>
    split at h <;> [skip; cases h]
    next hr =>
    split at h <;> [skip; cases h]
    next t ht =>
    have hl := ((readText_eq_some _ _ _ _).mp ht).1
    rcases textToBytes_cases t with ⟨_, hb⟩ | ⟨k, _, hb⟩ <;> rw [hb] at h <;> cases h
    exact effect_of_store (fun _ => hk) hr (by simp) rfl rfl (by simp [textRegion, hl]; omega) (by simp; omega)
  | decrypt =>
    simp only [commandRule, decryptRule, requireKey_bind, checkRegions_bind, cpRead_bind, check_bind] at h
    split at h <;> [skip; cases h]
    next hk =>
    split at h <;> [skip; cases h]
    next hr =>
    split at h <;> [skip; cases h]
    next t ht =>
    have hl := ((readText_eq_some _ _ _ _).mp ht).1
    rcases hexDecode_cases t with ⟨_, hb⟩ | ⟨_, _, hb⟩ | ⟨_, k, _, hb⟩ <;> rw [hb] at h
    · cases h
    · rw [ok_bind] at h
      split at h <;> cases h
      have hle := bytesToText_length_le (transformBlocks s.keymat (wholeBlocks (hexPairs t)))
      simp only [transformBlocks_length, wholeBlocks_length, hexPairs_length, hl] at hle
      exact effect_of_store (fun _ => hk) hr (by simp) rfl rfl (by simp [textRegion]; omega) (by simp; omega)
    · cases h

end Sys2Proof.Machine
end

