-- ==== Sys2Proof/Laws/PerInstr.lean ====
section
/-! SUPPORT. What holds of every instruction as syntax: its word has the fixed bits of its row of spec/opcode_table.json. -/

namespace Sys2Proof.Laws.MatchesTable

/-- The instruction's word agrees with its table row on the row's fixed bits (30_encoding.md R72, R73, R77). -/
def Statement (i : Instr) : Prop := encode i &&& i.tableRow.2 = i.tableRow.1

theorem nop : Statement .nop := by unfold Statement; decide
theorem keyset : Statement .keyset := by unfold Statement; decide
theorem bkgen : Statement .bkgen := by unfold Statement; decide
theorem xorm : Statement .xorm := by unfold Statement; decide
theorem bxform : Statement .bxform := by unfold Statement; decide
theorem frame : Statement .frame := by unfold Statement; decide
theorem hexenc : Statement .hexenc := by unfold Statement; decide
theorem hexdec : Statement .hexdec := by unfold Statement; decide
theorem txtenc : Statement .txtenc := by unfold Statement; decide
theorem txtdec : Statement .txtdec := by unfold Statement; decide
theorem encrypt : Statement .encrypt := by unfold Statement; decide
theorem decrypt : Statement .decrypt := by unfold Statement; decide
theorem illegal (word : Word) : Statement (.illegal word) := BitVec.and_zero
theorem srst : Statement .srst := by unfold Statement; decide
theorem doneclr (ovrclr ie : Bool) : Statement (.doneclr ovrclr ie) := by
  unfold Statement; cases ovrclr <;> cases ie <;> decide
theorem ovrclr (doneclr ie : Bool) : Statement (.ovrclr doneclr ie) := by
  unfold Statement; cases doneclr <;> cases ie <;> decide
theorem ctrlwr (ovrclr doneclr ie : Bool) : Statement (.ctrlwr ovrclr doneclr ie) := by
  unfold Statement; cases ovrclr <;> cases doneclr <;> cases ie <;> decide

end Sys2Proof.Laws.MatchesTable
end

