-- ==== Sys2Proof/Laws/Step.lean ====
section
/-! SUPPORT. What a step can do: the decoder's laws, the port's targets, and one inversion lemma over all moves. -/

namespace Sys2Proof.Machine

/-! ### Decoding -/

theorem decodeCmd_port (w : Word) : (decodeCmd w).port = .cmd := by
  unfold decodeCmd
  split
  · rfl
  · split <;> rfl

theorem decodeCtrl_srst {v : Word} (h : v.getLsbD 1 = true) : decode .ctrl v = .srst := by
  rw [decode, decodeCtrl, if_pos h]

/-- What running a decoded CTRL word does. -/
theorem exec_decodeCtrl {v : Word} (h : v.getLsbD 1 = false) (s : State) :
    exec (decode .ctrl v) s = .next (writeCtrl s (v.getLsbD 3) (v.getLsbD 2) (v.getLsbD 0)) := by
  rw [decode, decodeCtrl, if_neg (by rw [h]; exact Bool.false_ne_true)]
  cases h2 : v.getLsbD 2 <;> cases h3 : v.getLsbD 3 <;> rfl

/-! ### Targets -/

theorem regAt_lt {a : Nat} {r : PortReg} (h : regAt a = some r) : a < 0x0060 := by
  unfold regAt at h
  split at h <;> first | omega | cases h

theorem regAt_ctrl {a : Nat} (h : regAt a = some .ctrl) : a = 0x0008 := by
  unfold regAt at h
  split at h <;> simp_all

theorem regAt_cmd {a : Nat} (h : regAt a = some .cmd) : a = 0x0010 := by
  unfold regAt at h
  split at h <;> simp_all

theorem regAt_blkIdx {a : Nat} (h : regAt a = some .blkIdx) : a = 0x0024 := by
  unfold regAt at h
  split at h <;> simp_all

theorem targetOf_reg {s : State} {bits : Nat} {addr : Word} {r : PortReg} (h : targetOf s bits addr = .reg r) :
    bits = 32 ∧ regAt addr.toNat = some r := by
  unfold targetOf at h
  simp only at h
  split at h <;> [cases h; skip]
  next hb =>
  split at h
  · split at h
    · cases h
    next r' hr => cases h; exact ⟨by omega, hr⟩
  · split at h <;> cases h

theorem targetOf_mem {s : State} {bits : Nat} {addr : Word} {a : Nat} (h : targetOf s bits addr = .mem a) :
    bits = 32 ∧ addr.toNat % 4 = 0 ∧ 0x10000 ≤ addr.toNat ∧ a = addr.toNat - 0x10000 ∧ a + 4 ≤ s.config.memSize := by
  unfold targetOf at h
  simp only at h
  split at h <;> [cases h; skip]
  next hb =>
  split at h
  · split at h <;> cases h
  · split at h <;> [skip; cases h]
    next h1 h2 =>
    simp only [Target.mem.injEq] at h
    subst h
    exact ⟨by omega, by omega, by omega, rfl, h2⟩

theorem targetOf_of_reg {s : State} {addr : Word} {r : PortReg} (h : regAt addr.toNat = some r) (h4 : addr.toNat % 4 = 0) :
    targetOf s 32 addr = .reg r := by
  have := regAt_lt h
  unfold targetOf
  simp only
  rw [if_neg (by omega), if_pos (by omega), h]

theorem targetOf_of_mem {s : State} {addr : Word} (h4 : addr.toNat % 4 = 0) (h1 : 0x10000 ≤ addr.toNat)
    (h2 : addr.toNat - 0x10000 + 4 ≤ s.config.memSize) : targetOf s 32 addr = .mem (addr.toNat - 0x10000) := by
  unfold targetOf
  simp only
  rw [if_neg (by omega), if_neg (by omega), if_pos h2]

/-- A MEM write that goes on: the engine is idle, and the word is stored. -/
theorem writeWindow_next {s t : State} {a : Nat} {v : Word} (h : writeWindow s a v = .next t) :
    s.pend = none ∧ t = { s with mem := s.mem.write a (leBytes v) } := by
  rw [writeWindow] at h
  split at h
  · cases h
  next hb =>
    simp only [Host.Outcome.next.injEq] at h
    exact ⟨by simpa using hb, h.symm⟩

/-! ### A step -/

/-- A host access is the first event: the step is what the port makes of it. -/
theorem step_host {s : State} {acc : Access} {rest : List Event} (h : s.events = .host acc :: rest) :
    step s = perform (hostAccess { s with events := rest } acc) := by
  simp [step, nextMove, h]

/-- A host read of a MEM word as a step. -/
theorem step_read_mem {s : State} {addr : Word} {rest : List Event} (h : s.events = .host (.read 32 addr) :: rest)
    (h4 : addr.toNat % 4 = 0) (h1 : 0x10000 ≤ addr.toNat) (h2 : addr.toNat - 0x10000 + 4 ≤ s.config.memSize) :
    step s = readWindow { s with events := rest } (addr.toNat - 0x10000) := by
  rw [step_host h, hostAccess, targetOf_of_mem (s := { s with events := rest }) h4 h1 h2]
  rfl

/-- A host write of a MEM word as a step. -/
theorem step_write_mem {s : State} {addr v : Word} {rest : List Event} (h : s.events = .host (.write 32 addr v) :: rest)
    (h4 : addr.toNat % 4 = 0) (h1 : 0x10000 ≤ addr.toNat) (h2 : addr.toNat - 0x10000 + 4 ≤ s.config.memSize) :
    step s = writeWindow { s with events := rest } (addr.toNat - 0x10000) v := by
  rw [step_host h, hostAccess, targetOf_of_mem (s := { s with events := rest }) h4 h1 h2]
  rfl

/-- A host read of a register as a step. -/
theorem step_read_reg {s : State} {addr : Word} {r : PortReg} {rest : List Event}
    (h : s.events = .host (.read 32 addr) :: rest) (hr : regAt addr.toNat = some r) (h4 : addr.toNat % 4 = 0) :
    step s = .next (State.returned { s with events := rest } (readReg { s with events := rest } r)) := by
  rw [step_host h, hostAccess, targetOf_of_reg (s := { s with events := rest }) hr h4]
  rfl

/-- A host write of a register as a step. -/
theorem step_write_reg {s : State} {addr v : Word} {r : PortReg} {rest : List Event}
    (h : s.events = .host (.write 32 addr v) :: rest) (hr : regAt addr.toNat = some r) (h4 : addr.toNat % 4 = 0) :
    step s = perform (writeReg { s with events := rest } r v) := by
  rw [step_host h, hostAccess, targetOf_of_reg (s := { s with events := rest }) hr h4]

/-- Everything a step that goes on can have been: a completion; a move that only takes an event off or returns a word
to the host; a write of an operand register; a CMD write; a CTRL write; a write of a MEM word. -/
theorem step_cases {s t : State} (h : step s = .next t) :
    (EngineNext s ∧ ∃ p es, s.pend = some p ∧ exec (decode .cmd p.cmd) { s with events := es } = .next t) ∨
    (t = { s with events := t.events, readback := t.readback }) ∨
    (∃ a v rest, s.events = .host (.write 32 a v) :: rest ∧
      t = { s with events := rest, srcAddr := t.srcAddr, srcLen := t.srcLen, auxAddr := t.auxAddr, dstAddr := t.dstAddr,
                   blkIdx := t.blkIdx } ∧ (t.blkIdx = s.blkIdx ∨ (a = 0x0024 ∧ t.blkIdx = v))) ∨
    (∃ v rest, s.events = .host (.write 32 0x0010 v) :: rest ∧ t = writeCmd { s with events := rest } v) ∨
    (∃ v rest, s.events = .host (.write 32 0x0008 v) :: rest ∧
      exec (decode .ctrl v) { s with events := rest } = .next t) ∨
    (s.pend = none ∧ ∃ a v rest, s.events = .host (.write 32 a v) :: rest ∧ 0x10000 ≤ a.toNat ∧
      a.toNat - 0x10000 + 4 ≤ s.config.memSize ∧
      t = { s with events := rest, mem := s.mem.write (a.toNat - 0x10000) (leBytes v) }) := by
  have turn : ∀ es, EngineNext s → perform (engineTurn { s with events := es }) = .next t →
      (EngineNext s ∧ ∃ p es, s.pend = some p ∧ exec (decode .cmd p.cmd) { s with events := es } = .next t) ∨
      (t = { s with events := t.events, readback := t.readback }) := by
    intro es hn ht
    simp only [engineTurn] at ht
    cases hp : s.pend with
    | none =>
      simp only [hp] at ht
      cases ht
      exact .inr (by simp)
    | some p =>
      simp only [hp] at ht
      exact .inl ⟨hn, p, es, rfl, by simpa only [hp, perform] using ht⟩
  cases he : s.events with
  | nil =>
    have hs : step s = perform (engineTurn { s with events := [] }) := by
      rw [step, nextMove, he]
      simp only [← he]
    rcases turn [] (.inl he) (hs ▸ h) with h | h
    · exact .inl h
    · exact .inr (.inl h)
  | cons e rest =>
    cases e with
    | engine =>
      rcases turn rest (.inr ⟨rest, he⟩) (by simpa [step, nextMove, he] using h) with h | h
      · exact .inl h
      · exact .inr (.inl h)
    | host acc =>
      rw [step_host he] at h
      cases acc with
      | read bits addr =>
        right; left
        simp only [hostAccess] at h
        cases ht : targetOf { s with events := rest } bits addr with
        | nowhere => simp [ht, perform] at h
        | reg r =>
          simp only [ht, perform] at h
          cases h
          rfl
        | mem a =>
          simp only [ht, perform, readWindow] at h
          split at h <;> [cases h; skip]
          split at h <;> cases h
          rfl
      | write bits addr v =>
        simp only [hostAccess] at h
        cases ht : targetOf { s with events := rest } bits addr with
        | nowhere => simp [ht, perform] at h
        | mem a =>
          obtain ⟨rfl, h4, h1, ha, h2⟩ := targetOf_mem ht
          rw [ha] at h2
          simp only [ht, perform] at h
          obtain ⟨hp, h⟩ := writeWindow_next h
          exact .inr (.inr (.inr (.inr (.inr ⟨hp, addr, v, rest, rfl, h1, h2, ha ▸ h⟩))))
        | reg r =>
          obtain ⟨rfl, hr⟩ := targetOf_reg ht
          simp only [ht] at h
          cases r with
          | ctrl =>
            have ha : addr = 0x0008 := by
              apply BitVec.eq_of_toNat_eq
              rw [regAt_ctrl hr]; rfl
            subst ha
            exact .inr (.inr (.inr (.inr (.inl ⟨v, rest, rfl, h⟩))))
          | cmd =>
            have ha : addr = 0x0010 := by
              apply BitVec.eq_of_toNat_eq
              rw [regAt_cmd hr]; rfl
            subst ha
            simp only [writeReg, perform] at h
            cases h
            exact .inr (.inr (.inr (.inl ⟨v, rest, rfl, rfl⟩)))
          | srcAddr =>
            simp only [writeReg, perform, Host.Outcome.next.injEq] at h
            subst h
            exact .inr (.inr (.inl ⟨addr, v, rest, rfl, rfl, .inl rfl⟩))
          | srcLen =>
            simp only [writeReg, perform, Host.Outcome.next.injEq] at h
            subst h
            exact .inr (.inr (.inl ⟨addr, v, rest, rfl, rfl, .inl rfl⟩))
          | auxAddr =>
            simp only [writeReg, perform, Host.Outcome.next.injEq] at h
            subst h
            exact .inr (.inr (.inl ⟨addr, v, rest, rfl, rfl, .inl rfl⟩))
          | dstAddr =>
            simp only [writeReg, perform, Host.Outcome.next.injEq] at h
            subst h
            exact .inr (.inr (.inl ⟨addr, v, rest, rfl, rfl, .inl rfl⟩))
          | blkIdx =>
            have ha : addr = 0x0024 := by
              apply BitVec.eq_of_toNat_eq
              rw [regAt_blkIdx hr]; rfl
            simp only [writeReg, perform, Host.Outcome.next.injEq] at h
            subst h
            exact .inr (.inr (.inl ⟨addr, v, rest, rfl, rfl, .inr ⟨ha, rfl⟩⟩))
          | id | memsize | status | outLen | errPos =>
            simp only [writeReg, perform] at h; cases h
            exact .inr (.inl rfl)
          | keypad i | keymat i | bkmat i =>
            simp only [writeReg, perform] at h; cases h
            exact .inr (.inl rfl)

end Sys2Proof.Machine
end

