-- ==== Sys2Proof/Tests/Slice0.lean ====
section
/-! SUPPORT. The model's own tests: the well-formedness checks, words written out from the spec's encodings, vectors of
95_test_vectors.md, and for each obligation with hypotheses a state that meets them. -/

set_option maxRecDepth 20000

namespace Sys2Proof.Tests

open Sys2Proof Sys2Proof.Machine

/-! ### Helpers -/

/-- A text of characters that follow one another, as "abc…". -/
def charsFrom (c n : Nat) : List Word := (List.range n).map fun k => BitVec.ofNat 32 (c + k)

/-- The bytes `b`, `b + 1`, … -/
def bytesFrom (b n : Nat) : List Byte := (List.range n).map fun k => BitVec.ofNat 8 (b + k)

/-- The n hex digits of w, the most significant first, as the code points the spec gives them (00_scope.md R14). -/
def hexText (n w : Nat) : List Word :=
  (List.range n).map fun k =>
    [0x30, 0x31, 0x32, 0x33, 0x34, 0x35, 0x36, 0x37, 0x38, 0x39, 0x61, 0x62, 0x63, 0x64, 0x65, 0x66].getD
      (w / 16 ^ (n - 1 - k) % 16) 0

/-- The n bytes of w, the most significant first. -/
def hexBytes (n w : Nat) : List Byte := (List.range n).map fun k => BitVec.ofNat 8 (w / 256 ^ (n - 1 - k))

/-- The text "hello". -/
def hello : List Word := [0x68, 0x65, 0x6C, 0x6C, 0x6F]

/-- After power-on reset, with bytes in MEM. -/
def loaded (a : Nat) (bs : List Byte) : State := { State.reset with mem := Memory.write [] a bs }

/-- The same with the key "abcdefghijklmnop", whose matrix is that of vector V4. -/
def keyed (a : Nat) (bs : List Byte) : State :=
  { loaded a bs with
    keypad := toMatrix (hexBytes 16 0x6162636465666768696a6b6c6d6e6f70)
    keymat := toMatrix (hexBytes 16 0xc1aa9b94aaa4a6b09ba6b9d494b0d400)
    keyValid := true }

/-- A latch. -/
def latch (cmd src len dst : Word) (aux : Word := 0) (idx : Word := 0) : Latch :=
  { cmd := cmd, srcAddr := src, srcLen := len, auxAddr := aux, dstAddr := dst, blkIdx := idx }

/-- A state with a command pending and the engine's turn next. -/
def pending (s : State) (p : Latch) : State := { s with pend := some p }

/-- An idle state whose next move is a host access. -/
def access (a : Access) (s : State := State.reset) : State := { s with events := [.host a] }

/-- What the host reads after a step: STATUS, OUT_LEN, ERR_POS. -/
def seen (o : Out) : Option (Word × Word × Word) := (nextState? o).map fun s => (s.statusWord, s.outLen, s.errPos)

/-- The bytes in MEM after a step. -/
def bytesAfter (o : Out) (a n : Nat) : Option (List Byte) := (nextState? o).bind fun s => s.mem.readBytes a n

/-- The text in MEM after a step. -/
def textAfter (o : Out) (a n : Nat) : Option (List Word) := (nextState? o).bind fun s => s.mem.readText a n

/-- The four row words of a matrix. -/
def rows (m : ByteMatrix) : List Word := [rowWord m 0, rowWord m 1, rowWord m 2, rowWord m 3]

/-- An outcome that a check finds to be a next state with a property is one. -/
theorem next_of_check {o : Out} (P : State → Prop) [DecidablePred P] (h : (nextState? o).any (fun t => decide (P t)) = true) :
    ∃ t, o = .next t ∧ P t := by
  cases o with
  | next t => exact ⟨t, rfl, by simpa [nextState?] using h⟩
  | fault f => simp [nextState?] at h
  | refused r => simp [nextState?] at h

/-! ### Well-formedness: an ill-formed term for each check -/

theorem test_wellFormed_refuses_assigned_illegal :
    (Instr.illegal 0x00000000).wellFormed = false ∧ (Instr.illegal 0x0000000B).wellFormed = false ∧
    (Instr.illegal 0x0000000C).wellFormed = true ∧ (Instr.illegal 0x00000100).wellFormed = true := by decide

theorem test_wellFormed_refuses_ovrclr_with_doneclr :
    (Instr.ovrclr true false).wellFormed = false ∧ (Instr.ovrclr false true).wellFormed = true := by decide

theorem test_wellFormed_refuses_ctrlwr_with_actions :
    (Instr.ctrlwr true false false).wellFormed = false ∧ (Instr.ctrlwr false true false).wellFormed = false ∧
    (Instr.ctrlwr false false true).wellFormed = true := by decide

/-! ### Decoding: words written out bit by bit from 30_encoding.md R70, R72, R77 -/

theorem test_decode_nop : decode .cmd 0b00000000000000000000000000000000 = .nop := by decide
theorem test_decode_keyset : decode .cmd 0b00000000000000000000000000000001 = .keyset := by decide
theorem test_decode_bkgen : decode .cmd 0b00000000000000000000000000000010 = .bkgen := by decide
theorem test_decode_xorm : decode .cmd 0b00000000000000000000000000000011 = .xorm := by decide
theorem test_decode_bxform : decode .cmd 0b00000000000000000000000000000100 = .bxform := by decide
theorem test_decode_frame : decode .cmd 0b00000000000000000000000000000101 = .frame := by decide
theorem test_decode_hexenc : decode .cmd 0b00000000000000000000000000000110 = .hexenc := by decide
theorem test_decode_hexdec : decode .cmd 0b00000000000000000000000000000111 = .hexdec := by decide
theorem test_decode_txtenc : decode .cmd 0b00000000000000000000000000001000 = .txtenc := by decide
theorem test_decode_txtdec : decode .cmd 0b00000000000000000000000000001001 = .txtdec := by decide
theorem test_decode_encrypt : decode .cmd 0b00000000000000000000000000001010 = .encrypt := by decide
theorem test_decode_decrypt : decode .cmd 0b00000000000000000000000000001011 = .decrypt := by decide
theorem test_decode_illegal :
    decode .cmd 0b00000000000000000000000000001100 = .illegal 0x0C ∧
    decode .cmd 0b00000000000000000000000100000000 = .illegal 0x100 ∧
    decode .cmd 0b10000000000000000000000000000011 = .illegal 0x80000003 := by decide
theorem test_decode_srst :
    decode .ctrl 0b00000000000000000000000000000010 = .srst ∧ decode .ctrl 0b11111111111111111111111111111111 = .srst := by
  decide
theorem test_decode_doneclr :
    decode .ctrl 0b00000000000000000000000000000101 = .doneclr false true ∧
    decode .ctrl 0b00000000000000000000000000001100 = .doneclr true false := by decide
theorem test_decode_ovrclr :
    decode .ctrl 0b00000000000000000000000000001000 = .ovrclr false false ∧
    decode .ctrl 0b00000000000000000000000000001001 = .ovrclr false true := by decide
theorem test_decode_ctrlwr :
    decode .ctrl 0b00000000000000000000000000000001 = .ctrlwr false false true ∧
    decode .ctrl 0b11111111111111111111111111110000 = .ctrlwr false false false := by decide

/-- The bits of a table row's word, placed as the next command (log entries 4 and 17). -/
theorem test_withFetchWord_runs :
    seen (step (State.reset.withFetchWord 32 0x00000000)) = some (0x00000002, 0, 0xFFFFFFFF) ∧
    seen (step (State.reset.withFetchWord 32 0x00000002)) = some (0x00000242, 0, 0xFFFFFFFF) := by decide

/-! ### Vectors of 95_test_vectors.md, one step each -/

/-- V48. -/
theorem test_nop : seen (step (pending State.reset (latch 0x00 0 0 0))) = some (0x00000002, 0, 0xFFFFFFFF) := by decide

/-- V4. -/
theorem test_keyset :
    let o := step (pending (loaded 0 (textBytes (charsFrom 0x61 16))) (latch 0x01 0 16 0))
    seen o = some (0x00000106, 0, 0xFFFFFFFF) ∧
    (nextState? o).map (fun s => rows s.keypad) = some [0x64636261, 0x68676665, 0x6c6b6a69, 0x706f6e6d] ∧
    (nextState? o).map (fun s => rows s.keymat) = some [0x949baac1, 0xb0a6a4aa, 0xd4b9a69b, 0x00d4b094] := by decide

/-- V7: the empty key at a misaligned address, and a wide character beyond position 15. -/
theorem test_keyset_errors :
    seen (step (pending State.reset (latch 0x01 0x0002 0 0))) = some (0x00000112, 0, 0xFFFFFFFF) ∧
    seen (step (pending (loaded 0 (textBytes (charsFrom 0x61 16 ++ [0x263A]))) (latch 0x01 0 17 0)))
      = some (0x00000132, 0, 0x00000010) := by decide

/-- V8, and V9 at 0xFFFFFFFF. -/
theorem test_bkgen :
    (nextState? (step (pending (keyed 0 []) (latch 0x02 0 0 0 0 1)))).map (fun s => rows s.bkmat)
      = some [0x959aabc0, 0xb1a7a5ab, 0xd5b8a79a, 0x01d5b195] ∧
    (nextState? (step (pending (keyed 0 []) (latch 0x02 0 0 0 0 0xFFFFFFFF)))).map (fun s => rows s.bkmat)
      = some [0x6b64553e, 0x4f595b55, 0x2b465964, 0xff2b4f6b] := by decide

/-- V10. -/
theorem test_bkgen_no_key : seen (step (pending State.reset (latch 0x02 0 0 0))) = some (0x00000242, 0, 0xFFFFFFFF) := by decide

/-- V13, V15. -/
theorem test_frame :
    bytesAfter (step (pending (loaded 0x100 (bytesFrom 1 15)) (latch 0x05 0x100 15 0x200))) 0x200 16
      = some (bytesFrom 1 15 ++ [0xFF]) ∧
    bytesAfter (step (pending (loaded 0x100 (bytesFrom 1 17)) (latch 0x05 0x100 17 0x200))) 0x200 32
      = some (bytesFrom 1 17 ++ [0xFF] ++ List.replicate 14 0) := by decide

/-- V11 at its limits, V17 (a): the empty input needs one block of room. -/
theorem test_frame_empty :
    bytesAfter (step (pending State.reset (latch 0x05 0x100 0 0xFFF0))) 0xFFF0 16 = some (0xFF :: List.replicate 15 0) ∧
    seen (step (pending State.reset (latch 0x05 0x100 0 0xFFF8))) = some (0x00000562, 0, 0xFFFFFFFF) := by decide

/-- V18. -/
theorem test_xorm :
    let o := step (pending (loaded 0x100 (bytesFrom 0 16 ++ List.replicate 16 0xFF)) (latch 0x03 0x100 0 0x120 0x110))
    seen o = some (0x00000302, 16, 0xFFFFFFFF) ∧
    bytesAfter o 0x120 16 = some (hexBytes 16 0xfffefdfcfbfaf9f8f7f6f5f4f3f2f1f0) := by decide

/-- V20. -/
theorem test_xorm_overlap :
    seen (step (pending (loaded 0x100 (bytesFrom 0 32)) (latch 0x03 0x100 0 0x108 0x110)))
      = some (0x00000362, 0, 0xFFFFFFFF) := by decide

/-- V22: the index wraps. -/
theorem test_bxform :
    let o := step (pending (keyed 0x100 (hexBytes 16 0x68656c6c6fff00000000000000000000))
      (latch 0x04 0x100 0 0x130 0 0xFFFFFFFF))
    seen o = some (0x00000406, 16, 0xFFFFFFFF) ∧ (nextState? o).map (·.blkIdx) = some 0 ∧
    bytesAfter o 0x130 16 = some (hexBytes 16 0x563008073aa4594f6459462b6b4f2bff) := by decide

/-- V23 (a): without a key BLK_IDX and BKMAT stay. -/
theorem test_bxform_no_key :
    let o := step (pending { State.reset with blkIdx := 5 } (latch 0x04 0x100 0 0x110 0 5))
    seen o = some (0x00000442, 0, 0xFFFFFFFF) ∧ (nextState? o).map (·.blkIdx) = some 5 := by decide

/-- V24. -/
theorem test_hexenc :
    let o := step (pending (loaded 0x100 [0x00, 0x0F, 0xA5, 0xFF]) (latch 0x06 0x100 4 0x200))
    seen o = some (0x00000602, 8, 0xFFFFFFFF) ∧
    textAfter o 0x200 8 = some [0x30, 0x30, 0x30, 0x66, 0x61, 0x35, 0x66, 0x66] := by decide

/-- V28: a misaligned destination. -/
theorem test_hexenc_misaligned :
    seen (step (pending (loaded 0x100 [0x00, 0x0F, 0xA5, 0xFF]) (latch 0x06 0x100 4 0x202)))
      = some (0x00000662, 0, 0xFFFFFFFF) := by decide

/-- V25: "0Fa5". -/
theorem test_hexdec :
    bytesAfter (step (pending (loaded 0x100 (textBytes [0x30, 0x46, 0x61, 0x35])) (latch 0x07 0x100 4 0x200))) 0x200 2
      = some [0x0F, 0xA5] := by decide

/-- V26, V27: an odd length, and " 0fa". -/
theorem test_hexdec_errors :
    seen (step (pending (loaded 0x100 (textBytes [0x30, 0x66, 0x61])) (latch 0x07 0x100 3 0x200)))
      = some (0x00000722, 0, 0xFFFFFFFF) ∧
    seen (step (pending (loaded 0x100 (textBytes [0x20, 0x30, 0x66, 0x61])) (latch 0x07 0x100 4 0x200)))
      = some (0x00000722, 0, 0) := by decide

/-- V29: code point 255 is accepted. -/
theorem test_txtenc :
    bytesAfter (step (pending (loaded 0x100 (textBytes [0x41, 0xFF])) (latch 0x08 0x100 2 0x200))) 0x200 2
      = some [0x41, 0xFF] := by decide

/-- V30: [0x41, 0x80000000]. -/
theorem test_txtenc_wide :
    seen (step (pending (loaded 0x100 (textBytes [0x41, 0x80000000])) (latch 0x08 0x100 2 0x200)))
      = some (0x00000832, 0, 1) := by decide

/-- V31: what stands after the text is not written. -/
theorem test_txtdec :
    let o := step (pending (loaded 0x100 [0x41, 0xFF, 0x42]) (latch 0x09 0x100 3 0x200))
    seen o = some (0x00000902, 1, 0xFFFFFFFF) ∧ textAfter o 0x200 1 = some [0x41] ∧
    (nextState? o).map (fun s => s.mem.read 0x204) = some none := by decide

/-- V33: 00 fe. -/
theorem test_txtdec_all :
    textAfter (step (pending (loaded 0x100 [0x00, 0xFE]) (latch 0x09 0x100 2 0x200))) 0x200 2 = some [0x00, 0xFE] := by decide

/-- V35. -/
theorem test_encrypt :
    let o := step (pending (keyed 0x100 (textBytes hello)) (latch 0x0A 0x100 5 0x1000))
    seen o = some (0x00000A06, 32, 0xFFFFFFFF) ∧
    textAfter o 0x1000 32 = some (hexText 32 0xa9cff7f8c55ba6b09ba6b9d494b0d400) := by decide

/-- V37: the first characters of the second block of "Hello, World!!!!!", combined with the next block key. -/
theorem test_encrypt_second_block :
    textAfter (step (pending (keyed 0x100 (textBytes
        [0x48, 0x65, 0x6C, 0x6C, 0x6F, 0x2C, 0x20, 0x57, 0x6F, 0x72, 0x6C, 0x64, 0x21, 0x21, 0x21, 0x21, 0x21]))
      (latch 0x0A 0x100 17 0x1000))) 0x1080 4 = some (hexText 4 0xe154) := by decide

/-- V41 of V35's text. -/
theorem test_decrypt :
    let o := step (pending (keyed 0x1000 (textBytes (hexText 32 0xa9cff7f8c55ba6b09ba6b9d494b0d400)))
      (latch 0x0B 0x1000 32 0x4000))
    seen o = some (0x00000B06, 5, 0xFFFFFFFF) ∧ textAfter o 0x4000 5 = some hello := by decide

/-- V45: "0g"; V46: the empty text. -/
theorem test_decrypt_errors :
    seen (step (pending (keyed 0x1000 (textBytes [0x30, 0x67])) (latch 0x0B 0x1000 2 0x4000))) = some (0x00000B26, 0, 1) ∧
    seen (step (pending (keyed 0x1000 []) (latch 0x0B 0x1000 0 0x4000))) = some (0x00000B26, 0, 0xFFFFFFFF) := by decide

/-- V49, V50. -/
theorem test_illegal :
    seen (step (pending State.reset (latch 0x000000FF 0 0 0))) = some (0x0000FF52, 0, 0xFFFFFFFF) ∧
    seen (step (pending State.reset (latch 0x00000100 0 0 0))) = some (0x00000052, 0, 0xFFFFFFFF) := by decide

/-- V51: a CMD write while BUSY. -/
theorem test_overrun :
    seen (step (access (.write 32 0x0010 0x00000000) (pending State.reset (latch 0x00 0 0 0))))
      = some (0x00000009, 0, 0xFFFFFFFF) := by decide

/-- V52: SRST after V4. -/
theorem test_srst :
    let o := step (access (.write 32 0x0008 0x2) (keyed 0x100 [0x41]))
    seen o = some (0x00000000, 0, 0xFFFFFFFF) ∧ (nextState? o).map (fun s => rows s.keymat) = some [0, 0, 0, 0] ∧
    bytesAfter o 0x100 1 = some [0x41] := by decide

/-- 44_control.md R184: SRST of a pending ENCRYPT leaves its destination unwritten. -/
theorem test_srst_abort :
    (nextState? (step (access (.write 32 0x0008 0x2) (pending (keyed 0x100 (bytesFrom 0 32)) (latch 0x0A 0x200 0 0x110))))).map
      (fun s => (s.mem.read 0x10F, s.mem.read 0x110, s.mem.read 0x11F)) = some (some 0x0F, none, none) := by decide

/-- P2 step 8: DONECLR with IE kept, then STATUS without DONE. -/
theorem test_doneclr :
    (nextState? (step (access (.write 32 0x0008 0x5) { State.reset with ie := true, done := true, keyValid := true, lastOp := 0x0A }))).map
      (fun s => (s.statusWord, s.irq, s.ie)) = some (0x00000A04, false, true) := by decide

/-- V51: OVRCLR, without touching DONE. -/
theorem test_ovrclr :
    (nextState? (step (access (.write 32 0x0008 0x8) { State.reset with ovr := true, done := true }))).map
      (fun s => s.statusWord) = some 0x00000002 := by decide

/-- 60_exceptions.md R210: setting IE with DONE pending raises irq. -/
theorem test_ctrlwr :
    (nextState? (step (access (.write 32 0x0008 0x1) { State.reset with done := true }))).map (fun s => s.irq) = some true := by
  decide

/-- P1: a MEM word write and the ID read. -/
theorem test_port :
    bytesAfter (step (access (.write 32 0x10004 0x00000061))) 4 4 = some [0x61, 0, 0, 0] ∧
    (nextState? (step (access (.read 32 0x0000)))).map (·.readback) = some [0x42544531] := by decide

/-! ### States that meet the obligations' hypotheses -/

theorem witness_DecodeOfEncodeIsTheInstruction :
    (Instr.decrypt).wellFormed = true ∧ (Instr.illegal 0xFFFFFFFF).wellFormed = true ∧ (Instr.srst).wellFormed = true ∧
    (Instr.doneclr true true).wellFormed = true ∧ (Instr.ovrclr false true).wellFormed = true ∧
    (Instr.ctrlwr false false false).wellFormed = true := by decide

/-- A NOP pending in the reset state. -/
def nopPending : State := pending State.reset (latch 0x00 0 0 0)

theorem witness_EngineTurnRunsTheLatchedCommand :
    (nopPending.pend = some (latch 0x00 0 0 0) ∧ nopPending.events = []) ∧
    ({ nopPending with events := [.engine] }.pend = some (latch 0x00 0 0 0) ∧
      { nopPending with events := [.engine] }.events = .engine :: []) := by decide

theorem witness_EngineTurnOfAnIdleEngine :
    (State.reset.pend = none ∧ State.reset.events = []) ∧
    ({ State.reset with events := [.engine] }.pend = none ∧
      { State.reset with events := [.engine] }.events = .engine :: []) := by decide

theorem witness_CtrlWriteRunsTheDecodedWord :
    (access (.write 32 0x0008 0xFFFFFFFF)).events = .host (.write 32 0x0008 0xFFFFFFFF) :: [] := by decide

theorem witness_FetchWordIsTheNextCommand : decodeTableWord 32 0x0000000A = some .encrypt := by decide

theorem witness_CmdWriteIsAcceptedWhenIdle :
    ((access (.write 32 0x0010 0xFFFFFFFF)).events = .host (.write 32 0x0010 0xFFFFFFFF) :: [] ∧
      (access (.write 32 0x0010 0xFFFFFFFF)).pend = none) ∧
    ((access (.write 32 0x0010 0x01) nopPending).events = .host (.write 32 0x0010 0x01) :: [] ∧
      (access (.write 32 0x0010 0x01) nopPending).pend ≠ none) := by decide

theorem witness_NopCompletes :
    nopPending.pend = some (latch 0x00 0 0 0) ∧ nopPending.events = [] ∧ (latch 0x00 0 0 0).cmd = 0x00000000 := by decide

/-- Both clauses, at the lowest reserved OPC and at the lowest RSV ≠ 0. -/
theorem witness_IllegalCommandCompletes :
    ((pending State.reset (latch 0x0C 0 0 0)).pend = some (latch 0x0C 0 0 0) ∧
      (pending State.reset (latch 0x0C 0 0 0)).events = [] ∧ 0x0C ≤ (latch 0x0C 0 0 0).cmd.toNat % 256) ∧
    ((pending State.reset (latch 0x100 0 0 0)).pend = some (latch 0x100 0 0 0) ∧
      (pending State.reset (latch 0x100 0 0 0)).events = [] ∧ (latch 0x100 0 0 0).cmd.toNat / 256 ≠ 0) := by decide

theorem witness_CtrlWriteBits :
    ((access (.write 32 0x0008 0x2)).events = .host (.write 32 0x0008 0x2) :: [] ∧ (0x2 : Word).getLsbD 1 = true) ∧
    ((access (.write 32 0x0008 0xFFFFFFFD)).events = .host (.write 32 0x0008 0xFFFFFFFD) :: [] ∧
      (0xFFFFFFFD : Word).getLsbD 1 = false) := by decide

/-- An idle state; an aborted XORM whose regions fail; one whose regions pass, at the ends of its destination. -/
theorem witness_SoftResetCompletes :
    State.reset.pend = none ∧
    (operandRegions (decode .cmd 0x03) (latch 0x03 0 0 0xFFF1)).ok State.reset.config.memSize = false ∧
    (operandRegions (decode .cmd 0x03) (latch 0x03 0 0 0xFFF0)).ok State.reset.config.memSize = true ∧
    InDestination (decode .cmd 0x03) (latch 0x03 0 0 0xFFF0) 0xFFF0 ∧
    InDestination (decode .cmd 0x03) (latch 0x03 0 0 0xFFF0) 0xFFFF ∧
    ¬ InDestination (decode .cmd 0x03) (latch 0x03 0 0 0xFFF0) 0xFFEF := by
  refine ⟨by decide, by decide, by decide, ⟨_, rfl, by decide⟩, ⟨_, rfl, by decide⟩, ?_⟩
  rintro ⟨d, hd, h1, -⟩
  cases hd
  revert h1
  decide

theorem witness_CommandsWithoutKeyReportNoKey :
    needsKey .bkgen = true ∧ needsKey .bxform = true ∧ needsKey .encrypt = true ∧ needsKey .decrypt = true ∧
    nopPending.pend = some (latch 0x00 0 0 0) ∧ nopPending.keyValid = false := by decide

/-- XORM with its destination one byte beyond MEM, and ENCRYPT of nothing to a misaligned text. -/
theorem witness_BadRegionsAreReported :
    (Instr.xorm.port = .cmd ∧ (pending State.reset (latch 0x03 0 0 0xFFF1)).pend = some (latch 0x03 0 0 0xFFF1) ∧
      (needsKey .xorm = true → State.reset.keyValid = true) ∧
      (operandRegions .xorm (latch 0x03 0 0 0xFFF1)).ok State.reset.config.memSize = false) ∧
    (Instr.encrypt.port = .cmd ∧ (pending (keyed 0 []) (latch 0x0A 0 0 2)).pend = some (latch 0x0A 0 0 2) ∧
      (needsKey .encrypt = true → (keyed 0 []).keyValid = true) ∧
      (operandRegions .encrypt (latch 0x0A 0 0 2)).ok (keyed 0 []).config.memSize = false) := by decide

theorem witness_ErrorsChangeOnlyCompletionFields :
    Instr.bkgen.port = .cmd ∧ ∃ t, exec .bkgen nopPending = .next t ∧ t.err ≠ .noError :=
  ⟨rfl, next_of_check _ (by decide)⟩

/-- ENCRYPT of one character whose last byte is unwritten. -/
theorem witness_UnwrittenSourceFaults :
    let s := pending (keyed 0x100 [0x41, 0, 0]) (latch 0x0A 0x100 1 0x200)
    readsMem .encrypt = true ∧ s.pend = some (latch 0x0A 0x100 1 0x200) ∧ (needsKey .encrypt = true → s.keyValid = true) ∧
    (operandRegions .encrypt (latch 0x0A 0x100 1 0x200)).ok s.config.memSize = true ∧
    ¬ SourcesWritten .encrypt (latch 0x0A 0x100 1 0x200) s.mem := by decide

theorem witness_EveryPendingCommandCompletes :
    let s := pending (loaded 0x100 (bytesFrom 0 3)) (latch 0x06 0x100 3 0x200)
    Instr.hexenc.port = .cmd ∧ s.pend = some (latch 0x06 0x100 3 0x200) ∧
    ((operandRegions .hexenc (latch 0x06 0x100 3 0x200)).ok s.config.memSize = true →
      SourcesWritten .hexenc (latch 0x06 0x100 3 0x200) s.mem) := by decide

theorem witness_CompletionWritesOnlyItsDestination :
    let s := pending (loaded 0x100 (bytesFrom 0 3)) (latch 0x06 0x100 3 0x200)
    Instr.hexenc.port = .cmd ∧ s.pend = some (latch 0x06 0x100 3 0x200) ∧ (∃ t, exec .hexenc s = .next t ∧ True) ∧
    ¬ InDestination .hexenc (latch 0x06 0x100 3 0x200) 0x1FF ∧ ¬ InDestination .hexenc (latch 0x06 0x100 3 0x200) 0x218 := by
  refine ⟨rfl, rfl, next_of_check _ (by decide), ?_, ?_⟩ <;>
  · rintro ⟨d, hd, h1, h2⟩
    cases hd
    revert h1 h2
    decide

/-- A key of one character 255, and the key of vector V4. -/
theorem witness_KeysetLoadsTheKey :
    (let s := pending (loaded 0 (textBytes [0xFF])) (latch 0x01 0 1 0)
     s.pend = some (latch 0x01 0 1 0) ∧ 1 = (latch 0x01 0 1 0).srcLen.toNat ∧ 0 < 1 ∧ regionValid s.config.memSize 0 (4 * 1) 4 ∧
     HoldsText s.mem 0 1 (fun _ => 0xFF) ∧ ∀ k, k < 1 → ((fun _ => 0xFF : Nat → Word) k).toNat ≤ 255) ∧
    (let s := pending (loaded 0 (textBytes (charsFrom 0x61 16))) (latch 0x01 0 16 0)
     s.pend = some (latch 0x01 0 16 0) ∧ regionValid s.config.memSize 0 (4 * 16) 4 ∧
     HoldsText s.mem 0 16 (fun k => BitVec.ofNat 32 (0x61 + k))) := by decide

theorem witness_KeysetErrors :
    ((pending State.reset (latch 0x01 2 0 0)).pend = some (latch 0x01 2 0 0) ∧ (latch 0x01 2 0 0).srcLen.toNat = 0) ∧
    (let s := pending (loaded 0 (textBytes [0x61, 0x62, 0x100, 0x63])) (latch 0x01 0 4 0)
     s.pend = some (latch 0x01 0 4 0) ∧ regionValid s.config.memSize 0 (4 * 4) 4 ∧
     HoldsText s.mem 0 4 (fun k => [0x61, 0x62, 0x100, 0x63].getD k 0) ∧ 2 < 4 ∧
     (∀ j, j < 2 → (([0x61, 0x62, 0x100, 0x63] : List Word).getD j 0).toNat ≤ 255) ∧
     255 < (([0x61, 0x62, 0x100, 0x63] : List Word).getD 2 0).toNat) := by decide

theorem witness_BaseKeyMatrixIsSymmetric : StateInv (keyed 0 []) := by decide

theorem witness_BkgenDerivesTheBlockKey :
    (pending (keyed 0 []) (latch 0x02 0 0 0)).pend = some (latch 0x02 0 0 0) ∧
    (pending (keyed 0 []) (latch 0x02 0 0 0)).keyValid = true := by decide

/-- The empty input, and 17 bytes. -/
theorem witness_FrameCompletes :
    (let s := pending State.reset (latch 0x05 0xFFFFFFFF 0 0xFFF0)
     s.pend = some (latch 0x05 0xFFFFFFFF 0 0xFFF0) ∧ regionValid s.config.memSize 0xFFFFFFFF 0 1 ∧
     regionValid s.config.memSize 0xFFF0 (16 * nblocks 0) 1 ∧ ¬ regionsOverlap 0xFFF0 (16 * nblocks 0) 0xFFFFFFFF 0 ∧
     HoldsBytes s.mem 0xFFFFFFFF 0 (fun _ => 0)) ∧
    (let s := pending (loaded 0x100 (bytesFrom 1 17)) (latch 0x05 0x100 17 0x111)
     s.pend = some (latch 0x05 0x100 17 0x111) ∧ regionValid s.config.memSize 0x100 17 1 ∧
     regionValid s.config.memSize 0x111 (16 * nblocks 17) 1 ∧ ¬ regionsOverlap 0x111 (16 * nblocks 17) 0x100 17 ∧
     HoldsBytes s.mem 0x100 17 (fun k => BitVec.ofNat 8 (1 + k))) := by decide

theorem witness_XormCompletes :
    let s := pending (loaded 0x100 (bytesFrom 0 32)) (latch 0x03 0x100 0 0x120 0x110)
    s.pend = some (latch 0x03 0x100 0 0x120 0x110) ∧ 0x100 + 16 ≤ s.config.memSize ∧ 0x110 + 16 ≤ s.config.memSize ∧
    0x120 + 16 ≤ s.config.memSize ∧ ¬ regionsOverlap 0x120 16 0x100 16 ∧ ¬ regionsOverlap 0x120 16 0x110 16 ∧
    HoldsBytes s.mem 0x100 16 (fun k => BitVec.ofNat 8 k) ∧ HoldsBytes s.mem 0x110 16 (fun k => BitVec.ofNat 8 (16 + k)) := by
  decide

theorem witness_BxformCompletes :
    let s := pending (keyed 0x100 (bytesFrom 0 16)) (latch 0x04 0x100 0 0x110 0 0xFFFFFFFF)
    s.pend = some (latch 0x04 0x100 0 0x110 0 0xFFFFFFFF) ∧ s.keyValid = true ∧ 0x100 + 16 ≤ s.config.memSize ∧
    0x110 + 16 ≤ s.config.memSize ∧ ¬ regionsOverlap 0x110 16 0x100 16 ∧
    HoldsBytes s.mem 0x100 16 (fun k => BitVec.ofNat 8 k) := by decide

theorem witness_BxformTwiceGivesTheBlockBack :
    let s := pending (keyed 0x100 (bytesFrom 0 16)) (latch 0x04 0x100 0 0x110 0 7)
    let p := latch 0x04 0x100 0 0x110 0 7
    let q := latch 0x04 0x110 0 0x100 0 7
    s.pend = some p ∧ s.keyValid = true ∧ p.srcAddr.toNat + 16 ≤ s.config.memSize ∧ p.dstAddr.toNat + 16 ≤ s.config.memSize ∧
    ¬ regionsOverlap p.dstAddr.toNat 16 p.srcAddr.toNat 16 ∧ HoldsBytes s.mem p.srcAddr.toNat 16 (fun k => BitVec.ofNat 8 k) ∧
    q.srcAddr = p.dstAddr ∧ q.blkIdx = p.blkIdx ∧ q.dstAddr.toNat + 16 ≤ s.config.memSize ∧
    ¬ regionsOverlap q.dstAddr.toNat 16 q.srcAddr.toNat 16 := by decide

/-- The text "hello" as a function of the position. -/
def helloAt (k : Nat) : Word := hello.getD k 0

/-- "hello" at 0x100 with a key and ENCRYPT to 0x1000 pending. -/
def helloState : State := pending (keyed 0x100 (textBytes hello)) (latch 0x0A 0x100 5 0x1000)

theorem witness_EncryptCompletes :
    helloState.pend = some (latch 0x0A 0x100 5 0x1000) ∧ helloState.keyValid = true ∧
    5 = (latch 0x0A 0x100 5 0x1000).srcLen.toNat ∧ regionValid helloState.config.memSize 0x100 (4 * 5) 4 ∧
    regionValid helloState.config.memSize 0x1000 (128 * nblocks 5) 4 ∧ ¬ regionsOverlap 0x1000 (128 * nblocks 5) 0x100 (4 * 5) ∧
    HoldsText helloState.mem 0x100 5 helloAt ∧ ∀ k, k < 5 → (helloAt k).toNat ≤ 255 := by decide

/-- The hex digit values of the n digits of w. -/
def digit (n w k : Nat) : Nat := w / 16 ^ (n - 1 - k) % 16

/-- The n hex digits of w at 0x1000, with a key and DECRYPT to 0x4000 pending. -/
def hexState (n w : Nat) : State :=
  pending (keyed 0x1000 (textBytes (hexText n w))) (latch 0x0B 0x1000 (BitVec.ofNat 32 n) 0x4000)

/-- The hypotheses of DECRYPT's completion, for the n digits of w. -/
abbrev DecryptReady (n e w : Nat) : Prop :=
  (hexState n w).pend = some (latch 0x0B 0x1000 (BitVec.ofNat 32 n) 0x4000) ∧ (hexState n w).keyValid = true ∧
  n = (BitVec.ofNat 32 n).toNat ∧ regionValid (hexState n w).config.memSize 0x1000 (4 * n) 4 ∧
  regionValid (hexState n w).config.memSize 0x4000 (4 * (n / 2)) 4 ∧ ¬ regionsOverlap 0x4000 (4 * (n / 2)) 0x1000 (4 * n) ∧
  HoldsText (hexState n w).mem 0x1000 n (fun k => (hexText n w).getD k 0) ∧
  (∀ k, k < n → HexChar ((hexText n w).getD k 0) (digit n w k)) ∧ 0 < n ∧ n % 32 = 0 ∧
  (∀ q, q < e → BitVec.ofNat 8 (digit n w (2 * q) * 16 + digit n w (2 * q + 1)) ^^^ keyByte (hexState n w).keymat q ≠ 0xFF) ∧
  (e = n / 2 ∨ (e < n / 2 ∧
    BitVec.ofNat 8 (digit n w (2 * e) * 16 + digit n w (2 * e + 1)) ^^^ keyByte (hexState n w).keymat e = 0xFF))

/-- V35's ciphertext, whose plaintext ends at a delimiter. -/
theorem witness_DecryptCompletes_delimiter : DecryptReady 32 5 0xa9cff7f8c55ba6b09ba6b9d494b0d400 := by decide

/-- V36's first ciphertext, which holds no delimiter. -/
theorem witness_DecryptCompletes_whole : DecryptReady 32 16 0xf19ba9a79e919087a39fd8b6f7d4b166 := by decide

/-- An odd text: "abc". -/
theorem witness_DecryptErrors_odd :
    (hexState 3 0xabc).pend = some (latch 0x0B 0x1000 3 0x4000) ∧ (hexState 3 0xabc).keyValid = true ∧
    (operandRegions .decrypt (latch 0x0B 0x1000 3 0x4000)).ok (hexState 3 0xabc).config.memSize = true ∧
    HoldsText (hexState 3 0xabc).mem 0x1000 3 (fun k => (hexText 3 0xabc).getD k 0) ∧ 3 % 2 = 1 := by decide

/-- A non-hex character: "0g". -/
theorem witness_DecryptErrors_nonHex :
    let s := pending (keyed 0x1000 (textBytes [0x30, 0x67])) (latch 0x0B 0x1000 2 0x4000)
    s.pend = some (latch 0x0B 0x1000 2 0x4000) ∧ s.keyValid = true ∧
    (operandRegions .decrypt (latch 0x0B 0x1000 2 0x4000)).ok s.config.memSize = true ∧
    HoldsText s.mem 0x1000 2 (fun k => [0x30, 0x67].getD k 0) ∧ 2 % 2 = 0 ∧ 1 < 2 ∧
    (∀ j, j < 1 → HexChar (([0x30, 0x67] : List Word).getD j 0) 0) ∧ NotHexChar (([0x30, 0x67] : List Word).getD 1 0) := by
  decide

/-- The byte counts 0 and 17. -/
theorem witness_DecryptErrors_count :
    ((hexState 0 0).pend = some (latch 0x0B 0x1000 0 0x4000) ∧
      (operandRegions .decrypt (latch 0x0B 0x1000 0 0x4000)).ok (hexState 0 0).config.memSize = true ∧ 0 % 2 = 0 ∧ 0 / 2 = 0) ∧
    ((hexState 34 0).pend = some (latch 0x0B 0x1000 34 0x4000) ∧
      (operandRegions .decrypt (latch 0x0B 0x1000 34 0x4000)).ok (hexState 34 0).config.memSize = true ∧
      HoldsText (hexState 34 0).mem 0x1000 34 (fun k => (hexText 34 0).getD k 0) ∧ 34 % 2 = 0 ∧
      (∀ j, j < 34 → HexChar ((hexText 34 0).getD j 0) 0) ∧ 34 / 2 % 16 ≠ 0) := by decide

theorem witness_DecryptOfEncryptIsThePlaintext :
    let p := latch 0x0A 0x100 5 0x1000
    let q := latch 0x0B 0x1000 32 0x4000
    helloState.pend = some p ∧ helloState.keyValid = true ∧ 5 = p.srcLen.toNat ∧
    (operandRegions .encrypt p).ok helloState.config.memSize = true ∧ HoldsText helloState.mem p.srcAddr.toNat 5 helloAt ∧
    (∀ k, k < 5 → (helloAt k).toNat ≤ 254) ∧ q.srcAddr = p.dstAddr ∧ q.srcLen.toNat = 32 * nblocks 5 ∧
    (operandRegions .decrypt q).ok helloState.config.memSize = true := by decide

/-- V37a: "hello" and "jello". -/
theorem witness_EncryptBlocksAreIndependent :
    let p := latch 0x0A 0x100 5 0x1000
    let s := pending (keyed 0x100 (textBytes (0x6A :: hello.tail))) p
    helloState.pend = some p ∧ s.pend = some p ∧ helloState.keyValid = true ∧ s.keyValid = true ∧
    helloState.keymat = s.keymat ∧ helloState.config = s.config ∧ 5 = p.srcLen.toNat ∧
    (operandRegions .encrypt p).ok helloState.config.memSize = true ∧ HoldsText helloState.mem 0x100 5 helloAt ∧
    HoldsText s.mem 0x100 5 (fun k => if k = 0 then 0x6A else helloAt k) ∧
    (∀ k, k < 5 → (helloAt k).toNat ≤ 255 ∧ (if k = 0 then 0x6A else helloAt k).toNat ≤ 255) ∧
    (∀ k, k < 5 → k ≠ 0 → helloAt k = if k = 0 then 0x6A else helloAt k) := by decide

/-- The block of V21, which is the framing of "hello". -/
theorem witness_BxformOfAFramedBlockIsEncryptsBlock :
    let p := latch 0x0A 0x100 5 0x1000
    let q := latch 0x04 0x100 0 0x110
    let r := pending (keyed 0x100 (hexBytes 16 0x68656c6c6fff00000000000000000000)) q
    helloState.pend = some p ∧ helloState.keyValid = true ∧ 5 = p.srcLen.toNat ∧
    (operandRegions .encrypt p).ok helloState.config.memSize = true ∧ HoldsText helloState.mem 0x100 5 helloAt ∧
    (∀ k, k < 5 → (helloAt k).toNat ≤ 255) ∧ r.pend = some q ∧ r.keyValid = true ∧ r.keymat = helloState.keymat ∧
    (operandRegions .bxform q).ok r.config.memSize = true ∧ 0 < nblocks 5 ∧ q.blkIdx = BitVec.ofNat 32 0 ∧
    HoldsBytes r.mem 0x100 16 (fun k => framedByte 5 (fun j => BitVec.ofNat 8 (helloAt j).toNat) (16 * 0 + k)) := by decide

theorem witness_TxtencCompletes :
    let s := pending (loaded 0x100 (textBytes [0x41, 0xFF])) (latch 0x08 0x100 2 0x108)
    s.pend = some (latch 0x08 0x100 2 0x108) ∧ regionValid s.config.memSize 0x100 (4 * 2) 4 ∧
    regionValid s.config.memSize 0x108 2 1 ∧ ¬ regionsOverlap 0x108 2 0x100 (4 * 2) ∧
    HoldsText s.mem 0x100 2 (fun k => [0x41, 0xFF].getD k 0) ∧
    ∀ k, k < 2 → (([0x41, 0xFF] : List Word).getD k 0).toNat ≤ 255 := by decide

theorem witness_WideCharactersAreReported :
    (let s := pending (loaded 0x100 (textBytes [0x41, 0x100])) (latch 0x08 0x100 2 0x200)
     s.pend = some (latch 0x08 0x100 2 0x200) ∧ (operandRegions .txtenc (latch 0x08 0x100 2 0x200)).ok s.config.memSize = true ∧
     HoldsText s.mem 0x100 2 (fun k => [0x41, 0x100].getD k 0) ∧ 1 < 2 ∧
     (∀ j, j < 1 → (([0x41, 0x100] : List Word).getD j 0).toNat ≤ 255) ∧ 255 < (([0x41, 0x100] : List Word).getD 1 0).toNat) ∧
    (let s := pending (keyed 0x100 (textBytes [0x41, 0x100])) (latch 0x0A 0x100 2 0x200)
     s.pend = some (latch 0x0A 0x100 2 0x200) ∧ s.keyValid = true ∧
     (operandRegions .encrypt (latch 0x0A 0x100 2 0x200)).ok s.config.memSize = true ∧
     HoldsText s.mem 0x100 2 (fun k => [0x41, 0x100].getD k 0)) := by decide

/-- With a delimiter at 1, and without one. -/
theorem witness_TxtdecCompletes :
    (let s := pending (loaded 0x100 [0x41, 0xFF, 0x42]) (latch 0x09 0x100 3 0x200)
     s.pend = some (latch 0x09 0x100 3 0x200) ∧ regionValid s.config.memSize 0x100 3 1 ∧
     regionValid s.config.memSize 0x200 (4 * 3) 4 ∧ ¬ regionsOverlap 0x200 (4 * 3) 0x100 3 ∧
     HoldsBytes s.mem 0x100 3 (fun k => [0x41, 0xFF, 0x42].getD k 0) ∧
     (∀ k, k < 1 → ([0x41, 0xFF, 0x42] : List Byte).getD k 0 ≠ 0xFF) ∧ 1 < 3 ∧
     ([0x41, 0xFF, 0x42] : List Byte).getD 1 0 = 0xFF) ∧
    (let s := pending (loaded 0x100 [0x00, 0xFE]) (latch 0x09 0x100 2 0x200)
     s.pend = some (latch 0x09 0x100 2 0x200) ∧ regionValid s.config.memSize 0x100 2 1 ∧
     regionValid s.config.memSize 0x200 (4 * 2) 4 ∧ ¬ regionsOverlap 0x200 (4 * 2) 0x100 2 ∧
     HoldsBytes s.mem 0x100 2 (fun k => [0x00, 0xFE].getD k 0) ∧
     (∀ k, k < 2 → ([0x00, 0xFE] : List Byte).getD k 0 ≠ 0xFF)) := by decide

theorem witness_HexencCompletes :
    let s := pending (loaded 0x100 (bytesFrom 0xA5 4)) (latch 0x06 0x100 4 0x104)
    s.pend = some (latch 0x06 0x100 4 0x104) ∧ regionValid s.config.memSize 0x100 4 1 ∧
    regionValid s.config.memSize 0x104 (8 * 4) 4 ∧ ¬ regionsOverlap 0x104 (8 * 4) 0x100 4 ∧
    HoldsBytes s.mem 0x100 4 (fun k => BitVec.ofNat 8 (0xA5 + k)) := by decide

/-- "0Fa9", with the last character of each range but one. -/
theorem witness_HexdecCompletes :
    let s := pending (loaded 0x100 (textBytes [0x30, 0x46, 0x61, 0x39])) (latch 0x07 0x100 4 0x110)
    s.pend = some (latch 0x07 0x100 4 0x110) ∧ regionValid s.config.memSize 0x100 (4 * 4) 4 ∧
    regionValid s.config.memSize 0x110 (4 / 2) 1 ∧ ¬ regionsOverlap 0x110 (4 / 2) 0x100 (4 * 4) ∧
    HoldsText s.mem 0x100 4 (fun k => [0x30, 0x46, 0x61, 0x39].getD k 0) ∧ 4 % 2 = 0 ∧
    ∀ k, k < 4 → HexChar (([0x30, 0x46, 0x61, 0x39] : List Word).getD k 0) ([0, 15, 10, 9].getD k 0) := by decide

/-- An odd text, and an even one whose second character, 0x3A, is just beyond '9'. -/
theorem witness_HexdecErrors :
    (let s := pending (loaded 0x100 (textBytes [0x30])) (latch 0x07 0x100 1 0x200)
     s.pend = some (latch 0x07 0x100 1 0x200) ∧ (operandRegions .hexdec (latch 0x07 0x100 1 0x200)).ok s.config.memSize = true ∧
     HoldsText s.mem 0x100 1 (fun _ => 0x30) ∧ 1 % 2 = 1) ∧
    (let s := pending (loaded 0x100 (textBytes [0x30, 0x3A])) (latch 0x07 0x100 2 0x200)
     s.pend = some (latch 0x07 0x100 2 0x200) ∧ (operandRegions .hexdec (latch 0x07 0x100 2 0x200)).ok s.config.memSize = true ∧
     HoldsText s.mem 0x100 2 (fun k => [0x30, 0x3A].getD k 0) ∧ 2 % 2 = 0 ∧ 1 < 2 ∧
     (∀ j, j < 1 → HexChar (([0x30, 0x3A] : List Word).getD j 0) 0) ∧ NotHexChar (([0x30, 0x3A] : List Word).getD 1 0)) := by
  decide

theorem witness_HexRoundTrip : hexDecode [0x30, 0x46] = .ok [0x0F] := by decide

theorem witness_TextRoundTrip :
    (∀ c ∈ ([0x41, 0xFF, 0x42] : List Word), c.toNat ≤ 255) ∧ (∀ c ∈ ([0x00, 0xFE] : List Word), c.toNat ≤ 254) := by
  constructor <;> simp

/-- A KEYSET that changes the key, and a soft reset that does. -/
theorem witness_OnlyKeysetAndSoftResetChangeTheKey :
    (∃ t, step (pending (loaded 0 (textBytes [0x61])) (latch 0x01 0 1 0)) = .next t ∧ t.keypad ≠ ByteMatrix.zero) ∧
    (∃ t, step (access (.write 32 0x0008 0x2) (keyed 0 [])) = .next t ∧ t.keyValid ≠ (keyed 0 []).keyValid) :=
  ⟨next_of_check _ (by decide), next_of_check _ (by decide)⟩

/-- A BKGEN and a soft reset that change BKMAT; a BXFORM, a host write and a soft reset that change BLK_IDX. -/
theorem witness_WritersOfBkmatAndBlkIdx :
    (∃ t, step (pending (keyed 0 []) (latch 0x02 0 0 0)) = .next t ∧ t.bkmat ≠ (keyed 0 []).bkmat) ∧
    (∃ t, step (pending (keyed 0 (bytesFrom 0 16)) (latch 0x04 0 0 0x10)) = .next t ∧ t.blkIdx ≠ (keyed 0 []).blkIdx) ∧
    (∃ t, step (access (.write 32 0x0024 0xFFFFFFFF)) = .next t ∧ t.blkIdx ≠ State.reset.blkIdx) ∧
    (∃ t, step (access (.write 32 0x0008 0x2) { State.reset with blkIdx := 1, bkmat := Vector.replicate 16 1 }) = .next t ∧
      t.blkIdx ≠ 1 ∧ t.bkmat ≠ Vector.replicate 16 1) := by
  exact ⟨next_of_check _ (by decide), next_of_check _ (by decide), next_of_check _ (by decide), next_of_check _ (by decide)⟩

/-- OVR set; OVR cleared by OVRCLR and by SRST. -/
theorem witness_OverrunIsSticky :
    (nopPending.pend ≠ none ∧ nopPending.ovr = false ∧
      ∃ t, step (access (.write 32 0x0010 0) nopPending) = .next t ∧ t.ovr = true) ∧
    (∃ t, step (access (.write 32 0x0008 0x8) { State.reset with ovr := true }) = .next t ∧ t.ovr = false) ∧
    (∃ t, step (access (.write 32 0x0008 0x2) { State.reset with ovr := true }) = .next t ∧ t.ovr = false) :=
  ⟨⟨by decide, by decide, next_of_check _ (by decide)⟩, next_of_check _ (by decide), next_of_check _ (by decide)⟩

/-- A completion, a host write and an abort that change a byte. -/
theorem witness_WhatChangesMemory :
    (∃ t, step (pending State.reset (latch 0x05 0 0 0x100)) = .next t ∧ t.mem.read 0x10F ≠ State.reset.mem.read 0x10F) ∧
    (∃ t, step (access (.write 32 0x1FFFC 0)) = .next t ∧ t.mem.read 0xFFFF ≠ State.reset.mem.read 0xFFFF) ∧
    (∃ t, step (access (.write 32 0x0008 0x2) (pending (loaded 0x100 [0x41]) (latch 0x05 0 0 0x100))) = .next t ∧
      t.mem.read 0x100 ≠ (loaded 0x100 [0x41]).mem.read 0x100) :=
  ⟨next_of_check _ (by decide), next_of_check _ (by decide), next_of_check _ (by decide)⟩

/-- A BXFORM that succeeds, and one that ends with an error. -/
theorem witness_CompletionReadsOnlyTheLatch :
    Instr.bxform.port = .cmd ∧
    (∃ t, exec .bxform (pending (keyed 0 (bytesFrom 0 16)) (latch 0x04 0 0 0x10)) = .next t ∧ t.err = .noError) ∧
    (∃ t, exec .bxform nopPending = .next t ∧ t.err ≠ .noError) :=
  ⟨rfl, next_of_check _ (by decide), next_of_check _ (by decide)⟩

/-- A BXFORM, and a memory that differs from its state's just behind the source region. -/
theorem witness_CompletionReadsOnlyItsSources :
    let p := latch 0x04 0 0 0x10
    let s := pending (keyed 0 (bytesFrom 0 16)) p
    let m := Memory.write s.mem 16 [0x41]
    Instr.bxform.port = .cmd ∧ s.pend = some p ∧ (∃ t, exec .bxform s = .next t ∧ True) ∧ m ≠ s.mem ∧
    (∀ r ∈ (operandRegions .bxform p).srcs, ∀ k, k < r.size → m.read (r.addr + k) = s.mem.read (r.addr + k)) :=
  ⟨rfl, rfl, next_of_check _ (by decide), by decide, by decide⟩

theorem witness_InterruptLine :
    (Instr.nop.port = .cmd ∧ ∃ t, exec .nop nopPending = .next t ∧ True) ∧
    ((access (.write 32 0x0010 0)).pend = none ∧
      (access (.write 32 0x0010 0)).events = .host (.write 32 0x0010 0) :: [] ∧
      ∃ t, step (access (.write 32 0x0010 0)) = .next t ∧ True) ∧
    (∃ t, exec (.doneclr false true) nopPending = .next t ∧ True) ∧ (∃ t, exec .srst nopPending = .next t ∧ True) :=
  ⟨⟨rfl, next_of_check _ (by decide)⟩, ⟨rfl, rfl, next_of_check _ (by decide)⟩, next_of_check _ (by decide),
    next_of_check _ (by decide)⟩

/-- For every address some state reads it next. -/
theorem witness_RegisterReads (a : Nat) :
    (access (.read 32 (BitVec.ofNat 32 a))).events = .host (.read 32 (BitVec.ofNat 32 a)) :: [] := rfl

/-- For every address some idle and some busy state writes it next. -/
theorem witness_OperandRegisterWrites (a : Word) :
    (access (.write 32 a 0xFFFFFFFF)).events = .host (.write 32 a 0xFFFFFFFF) :: [] ∧
    (access (.write 32 a 0xFFFFFFFF) nopPending).events = .host (.write 32 a 0xFFFFFFFF) :: [] := ⟨rfl, rfl⟩

theorem witness_ReadOnlyRegistersIgnoreWrites (a : Nat) :
    (access (.write 32 (BitVec.ofNat 32 a) 1)).events = .host (.write 32 (BitVec.ofNat 32 a) 1) :: [] := rfl

/-- Each way to be illegal, at its boundaries; the accesses that stand next are those of the other witnesses. -/
theorem witness_IllegalAccessesAreBusErrors :
    (16 : Nat) ≠ 32 ∧ (0x10002 : Word).toNat % 4 ≠ 0 ∧
    (0x0060 ≤ (0x0060 : Word).toNat ∧ (0x0060 : Word).toNat < 0x10000) ∧
    (0x0060 ≤ (0xFFFC : Word).toNat ∧ (0xFFFC : Word).toNat < 0x10000) ∧
    0x10000 + State.reset.config.memSize ≤ (0x20000 : Word).toNat ∧
    (access (.read 16 0x10000)).events = .host (.read 16 0x10000) :: [] ∧
    (access (.write 32 0x20000 0)).events = .host (.write 32 0x20000 0) :: [] := by decide

/-- The first and the last word of the window; a written word and an unwritten one. -/
theorem witness_MemWindowAccesses :
    (State.reset.pend = none ∧ 0x10000 ≤ (0x10000 : Word).toNat ∧ (0x10000 : Word).toNat % 4 = 0 ∧
      (0x10000 : Word).toNat - 0x10000 + 4 ≤ State.reset.config.memSize) ∧
    (0x10000 ≤ (0x1FFFC : Word).toNat ∧ (0x1FFFC : Word).toNat % 4 = 0 ∧
      (0x1FFFC : Word).toNat - 0x10000 + 4 ≤ State.reset.config.memSize) ∧
    (access (.write 32 0x1FFFC 1)).events = .host (.write 32 0x1FFFC 1) :: [] ∧
    (access (.read 32 0x10000) (loaded 0 (bytesFrom 1 4))).events = .host (.read 32 0x10000) :: [] ∧
    HoldsBytes (loaded 0 (bytesFrom 1 4)).mem ((0x10000 : Word).toNat - 0x10000) 4 (fun k => BitVec.ofNat 8 (1 + k)) ∧
    (loaded 0 (bytesFrom 1 3)).mem.read ((0x10000 : Word).toNat - 0x10000 + 3) = none := by decide

theorem witness_MemWindowWhileBusyFaults :
    nopPending.pend ≠ none ∧ 0x10000 ≤ (0x1FFFC : Word).toNat ∧ (0x1FFFC : Word).toNat % 4 = 0 ∧
    (0x1FFFC : Word).toNat - 0x10000 + 4 ≤ nopPending.config.memSize ∧
    (access (.read 32 0x1FFFC) nopPending).events = .host (.read 32 0x1FFFC) :: [] ∧
    (access (.write 32 0x1FFFC 0) nopPending).events = .host (.write 32 0x1FFFC 0) :: [] := by decide

/-- A pending XORM over a written source, in a state that meets the invariant, goes on. -/
theorem witness_EveryStepKeepsTheInvariant :
    let s := pending (loaded 0x100 (bytesFrom 0 32)) (latch 0x03 0x100 0 0x120 0x110)
    StateInv s ∧ ∃ t, step s = .next t ∧ True := ⟨by decide, next_of_check _ (by decide)⟩

end Sys2Proof.Tests
end

section
/-! What a step can do, as one inductive account of its moves, and the statements about the state that follow from it: which
move changes which register, and the invariant that every move keeps (10_state.md). -/

namespace Sys2Proof.Machine

/-! ### How a command completes -/

/-- A command that goes on either succeeded, with the effect its rule allows, or raised an error; an error's position is one
inside MEM, and only the content errors have one (44_control.md R181, 10_state.md R34). -/
theorem exec_command_cases {i : Instr} {s t : State} {p : Latch} (hi : i.port = .cmd) (hp : s.pend = some p)
    (h : exec i s = .next t) :
    (∃ u, CommandEffect i p s u ∧ t = u.succeed p) ∨
    (∃ e pos, e ≠ .noError ∧ (∀ k, pos = some k → (e = .encodingError ∨ e = .malformedInput) ∧ k < s.config.memSize) ∧
      t = s.raiseError p e pos) := by
  rw [exec_eq_runCommand hi] at h
  obtain ⟨q, hq, hrun⟩ := runCommand_next h
  obtain rfl : p = q := Option.some.inj (hp.symm.trans hq)
  rcases hrun with ⟨u, hu, ht⟩ | ⟨e, pos, he, ht⟩
  · exact .inl ⟨u, rule_ok hu, ht⟩
  · obtain ⟨hne, hpos⟩ := rule_raise he
    exact .inr ⟨e, pos, hne, hpos, ht⟩

/-- Only a pending command goes on (10_state.md R40). -/
theorem exec_command_pending {i : Instr} {s t : State} (hi : i.port = .cmd) (h : exec i s = .next t) :
    ∃ p, s.pend = some p := by
  rw [exec_eq_runCommand hi] at h
  obtain ⟨p, hp, _⟩ := runCommand_next h
  exact ⟨p, hp⟩

namespace CommandEffect

variable {i : Instr} {p : Latch} {s u : State}

theorem config_eq (h : CommandEffect i p s u) : u.config = s.config := by rw [h.frame]

theorem ie_eq (h : CommandEffect i p s u) : u.ie = s.ie := by rw [h.frame]

theorem ovr_eq (h : CommandEffect i p s u) : u.ovr = s.ovr := by rw [h.frame]

/-- A command that changes one of the three key fields is KEYSET, and it leaves KEY_VALID = 1. -/
theorem keyset_of_key_changed (h : CommandEffect i p s u)
    (hc : u.keypad ≠ s.keypad ∨ u.keymat ≠ s.keymat ∨ u.keyValid ≠ s.keyValid) : i = .keyset ∧ u.keyValid = true := by
  rcases h.key with ⟨hpad, hmat, hvalid⟩ | ⟨hi, hvalid, _⟩
  · simp [hpad, hmat, hvalid] at hc
  · exact ⟨hi, hvalid⟩

/-- Only BKGEN and BXFORM change BKMAT. -/
theorem bkgen_or_bxform_of_bkmat_changed (h : CommandEffect i p s u) (hc : u.bkmat ≠ s.bkmat) :
    i = .bkgen ∨ i = .bxform := by
  rcases h.bkmat with hb | ⟨hi, _⟩
  · exact absurd hb hc
  · exact hi

/-- Only BXFORM changes BLK_IDX, and it leaves the latched index plus 1. -/
theorem bxform_of_blkIdx_changed (h : CommandEffect i p s u) (hc : u.blkIdx ≠ s.blkIdx) :
    i = .bxform ∧ u.blkIdx = p.blkIdx + 1 := by
  rcases h.blkIdx with ⟨_, hb⟩ | hb
  · exact absurd hb hc
  · exact hb

/-- MEM keeps its canonical form. -/
theorem mem_wf (h : CommandEffect i p s u) (hwf : s.mem.wf) : u.mem.wf := by
  rcases h.mem with ⟨hm, _⟩ | ⟨d, bs, _, _, hm, _⟩ <;> rw [hm]
  · exact hwf
  · exact write_wf hwf _ _

/-- What a command stores lies in its destination, so MEM stays inside its bounds and OUT_LEN does not pass them. -/
theorem mem_within_and_outLen_le (h : CommandEffect i p s u) (hin : s.mem.within s.config.memSize) :
    u.mem.within s.config.memSize ∧ u.outLen.toNat ≤ s.config.memSize := by
  rcases h.mem with ⟨hm, hn⟩ | ⟨d, bs, hd, hlen, hm, hn⟩ <;> rw [hm]
  · exact ⟨hin, by simp [hn]⟩
  · have hdst := dst_within h.regions hd
    exact ⟨write_within hin (by omega), by omega⟩

/-- KEYMAT stays the Base Key Matrix of KEYPAD (40_key_setup.md R103). -/
theorem keymat_eq_baseKey (h : CommandEffect i p s u) (hkey : s.keymat = baseKey s.keypad) :
    u.keymat = baseKey u.keypad := by
  rcases h.key with ⟨hpad, hmat, _⟩ | ⟨_, _, hmat⟩
  · rw [hpad, hmat, hkey]
  · exact hmat

/-- Without a key afterwards there was none before, and KEYPAD and BKMAT stay what they were (10_state.md R42): the commands
that write BKMAT need a key. -/
theorem unchanged_of_no_key (h : CommandEffect i p s u) (hk : u.keyValid = false) :
    s.keyValid = false ∧ u.keypad = s.keypad ∧ u.bkmat = s.bkmat := by
  rcases h.key with ⟨hpad, _, hvalid⟩ | ⟨_, hvalid, _⟩
  · have hnone : s.keyValid = false := hvalid ▸ hk
    refine ⟨hnone, hpad, ?_⟩
    by_contra hc
    have hneeds : needsKey i = true := by
      rcases h.bkgen_or_bxform_of_bkmat_changed hc with rfl | rfl <;> rfl
    simp [h.keyed hneeds] at hnone
  · simp [hvalid] at hk

end CommandEffect

/-! ### The moves of a step -/

/-- Everything a step that goes on from `s` can have been: the completion of the pending command with success or an error; a
move that leaves the engine's state; a host write to an operand register, to CMD (44_control.md R180), to CTRL (R183, R184) or
to a word of MEM. -/
inductive Move (s : State) : State → Prop
  | succeeded {p : Latch} {es : List Event} {u : State} (turn : EngineNext s) (pending : s.pend = some p)
      (effect : CommandEffect (decode .cmd p.cmd) p { s with events := es } u) : Move s (u.succeed p)
  | raised {p : Latch} {es : List Event} {e : ErrCode} {pos : Option Nat} (turn : EngineNext s) (pending : s.pend = some p)
      (isError : e ≠ .noError)
      (inMem : ∀ k, pos = some k → (e = .encodingError ∨ e = .malformedInput) ∧ k < s.config.memSize) :
      Move s (State.raiseError { s with events := es } p e pos)
  | quiet (es : List Event) (rb : List Word) : Move s { s with events := es, readback := rb }
  | operandWrite {a v : Word} {rest : List Event} (src len aux dst blk : Word)
      (access : s.events = .host (.write 32 a v) :: rest) (blkWrite : blk = s.blkIdx ∨ (a = 0x0024 ∧ blk = v)) :
      Move s { s with events := rest, srcAddr := src, srcLen := len, auxAddr := aux, dstAddr := dst, blkIdx := blk }
  | overrun {v : Word} {rest : List Event} (access : s.events = .host (.write 32 0x0010 v) :: rest)
      (busy : s.pend ≠ none) : Move s { s with events := rest, ovr := true }
  | accepted {v : Word} {rest : List Event} (access : s.events = .host (.write 32 0x0010 v) :: rest)
      (idle : s.pend = none) : Move s (State.accept { s with events := rest } v)
  | ctrlWrite {v : Word} {rest : List Event} (access : s.events = .host (.write 32 0x0008 v) :: rest)
      (noSrst : v.getLsbD 1 = false) :
      Move s (writeCtrl { s with events := rest } (v.getLsbD 3) (v.getLsbD 2) (v.getLsbD 0))
  | softReset {v : Word} {rest : List Event} (access : s.events = .host (.write 32 0x0008 v) :: rest)
      (srst : v.getLsbD 1 = true) : Move s (softReset { s with events := rest })
  | memWrite {a v : Word} {rest : List Event} (access : s.events = .host (.write 32 a v) :: rest) (idle : s.pend = none)
      (inWindow : 0x10000 ≤ a.toNat) (inMem : a.toNat - 0x10000 + 4 ≤ s.config.memSize) :
      Move s { s with events := rest, mem := s.mem.write (a.toNat - 0x10000) (leBytes v) }

theorem writeCmd_busy {s : State} (h : s.pend ≠ none) (v : Word) : writeCmd s v = { s with ovr := true } := by
  simp [writeCmd, Option.isSome_iff_ne_none, h]

theorem writeCmd_idle {s : State} (h : s.pend = none) (v : Word) : writeCmd s v = s.accept v := by
  simp [writeCmd, h]

/-- A completion is a move. -/
theorem move_of_completion {s t : State} {p : Latch} {es : List Event} (hturn : EngineNext s) (hp : s.pend = some p)
    (h : exec (decode .cmd p.cmd) { s with events := es } = .next t) : Move s t := by
  rcases exec_command_cases (s := { s with events := es }) (decodeCmd_port p.cmd) hp h with
    ⟨u, hu, rfl⟩ | ⟨e, pos, he, hpos, rfl⟩
  · exact .succeeded hturn hp hu
  · exact .raised hturn hp he hpos

/-- A CMD write is a move: an overrun or an acceptance. -/
theorem move_of_writeCmd {s : State} {v : Word} {rest : List Event}
    (hev : s.events = .host (.write 32 0x0010 v) :: rest) : Move s (writeCmd { s with events := rest } v) := by
  by_cases hp : s.pend = none
  · rw [writeCmd_idle (s := { s with events := rest }) hp]
    exact .accepted hev hp
  · rw [writeCmd_busy (s := { s with events := rest }) hp]
    exact .overrun hev hp

/-- A CTRL write is a move: a soft reset or a write of the other bits. -/
theorem move_of_writeCtrl {s t : State} {v : Word} {rest : List Event}
    (hev : s.events = .host (.write 32 0x0008 v) :: rest) (h : exec (decode .ctrl v) { s with events := rest } = .next t) :
    Move s t := by
  cases h1 : v.getLsbD 1 with
  | true =>
    rw [decodeCtrl_srst h1] at h
    cases h
    exact .softReset hev h1
  | false =>
    rw [exec_decodeCtrl h1] at h
    cases h
    exact .ctrlWrite hev h1

theorem move_of_step {s t : State} (h : step s = .next t) : Move s t := by
  rcases step_cases h with ⟨hturn, p, es, hp, hx⟩ | hquiet | ⟨a, v, rest, hev, ht, hb⟩ | ⟨v, rest, hev, ht⟩ |
    ⟨v, rest, hev, hx⟩ | ⟨hidle, a, v, rest, hev, hlow, hin, ht⟩
  · exact move_of_completion hturn hp hx
  · rw [hquiet]
    exact .quiet _ _
  · rw [ht]
    exact .operandWrite _ _ _ _ _ hev hb
  · rw [ht]
    exact move_of_writeCmd hev
  · exact move_of_writeCtrl hev hx
  · rw [ht]
    exact .memWrite hev hidle hlow hin

/-! ### The invariant -/

/-- Settles O59: every conjunct is a closed fact about the reset state. -/
theorem resetMeetsTheInvariant : Obligations.ResetMeetsTheInvariant := by
  unfold Obligations.ResetMeetsTheInvariant
  decide

/-- The coming events are no part of the invariant. -/
theorem stateInv_setEvents {s : State} (hs : StateInv s) (es : List Event) : StateInv { s with events := es } := hs

theorem stateInv_succeed {i : Instr} {p : Latch} {s u : State} (hs : StateInv s) (he : CommandEffect i p s u) :
    StateInv (u.succeed p) := by
  obtain ⟨hlegal, hwf, hin, _, hkey, hzero, _, _, _⟩ := hs
  obtain ⟨hin', hout⟩ := he.mem_within_and_outLen_le hin
  simp only [StateInv, succeed_config, succeed_mem, succeed_pend, succeed_keymat, succeed_keypad, succeed_keyValid,
    succeed_bkmat, succeed_err, succeed_outLen, succeed_errPos, he.config_eq]
  refine ⟨hlegal, he.mem_wf hwf, hin', by simp, he.keymat_eq_baseKey hkey, fun hk => ?_, by simp, hout, .inl rfl⟩
  obtain ⟨hnone, hpad, hbk⟩ := he.unchanged_of_no_key hk
  rw [hpad, hbk]
  exact hzero hnone

theorem stateInv_raiseError {p : Latch} {s : State} {e : ErrCode} {pos : Option Nat} (hs : StateInv s)
    (hpos : ∀ k, pos = some k → (e = .encodingError ∨ e = .malformedInput) ∧ k < s.config.memSize) :
    StateInv (s.raiseError p e pos) := by
  obtain ⟨hlegal, hwf, hin, _, hkey, hzero, _, _, _⟩ := hs
  refine ⟨hlegal, hwf, hin, by simp, hkey, hzero, fun _ => rfl, Nat.zero_le _, ?_⟩
  cases pos with
  | none => exact .inl rfl
  | some k =>
    obtain ⟨he, hk⟩ := hpos k rfl
    refine .inr ⟨he, Nat.lt_of_le_of_lt ?_ hk⟩
    simp only [raiseError_errPos, BitVec.toNat_ofNat]
    exact Nat.mod_le _ _

theorem stateInv_writeCtrl {s : State} (hs : StateInv s) (o d e : Bool) : StateInv (writeCtrl s o d e) := by
  obtain ⟨hlegal, hwf, hin, hdone, hrest⟩ := hs
  exact ⟨hlegal, hwf, hin, fun hp => by simp [hdone hp], hrest⟩

theorem memAfterReset_wf {s : State} (h : s.mem.wf) : (memAfterReset s).wf := by
  unfold memAfterReset
  split
  · exact h
  · exact forget_wf h _ _

theorem memAfterReset_within {s : State} {n : Nat} (h : s.mem.within n) : (memAfterReset s).within n := by
  unfold memAfterReset
  split
  · exact h
  · exact forget_within h _ _

theorem stateInv_softReset {s : State} (hs : StateInv s) : StateInv (softReset s) := by
  obtain ⟨hlegal, hwf, hin, _⟩ := hs
  exact ⟨hlegal, memAfterReset_wf hwf, memAfterReset_within hin, by simp, baseKey_zero.symm, fun _ => ⟨rfl, rfl⟩,
    by simp, Nat.zero_le _, .inl rfl⟩

theorem stateInv_memWrite {s : State} (hs : StateInv s) {a : Nat} {bs : List Byte}
    (ha : a + bs.length ≤ s.config.memSize) : StateInv { s with mem := s.mem.write a bs } := by
  obtain ⟨hlegal, hwf, hin, hrest⟩ := hs
  exact ⟨hlegal, write_wf hwf a bs, write_within hin (.inr ha), hrest⟩

theorem stateInv_accept {s : State} (hs : StateInv s) (v : Word) : StateInv (s.accept v) := by
  obtain ⟨hlegal, hwf, hin, _, hrest⟩ := hs
  exact ⟨hlegal, hwf, hin, fun _ => rfl, hrest⟩

/-- Settles O60: each move of a step keeps the invariant; the host's reads and register writes leave every field it speaks of. -/
theorem everyStepKeepsTheInvariant : Obligations.EveryStepKeepsTheInvariant := by
  unfold Obligations.EveryStepKeepsTheInvariant
  intro s t hs h
  cases move_of_step h with
  | succeeded _ _ effect => exact stateInv_succeed (stateInv_setEvents hs _) effect
  | raised _ _ _ inMem => exact stateInv_raiseError hs inMem
  | quiet => exact hs
  | operandWrite => exact hs
  | overrun => exact hs
  | accepted => exact stateInv_accept hs _
  | @ctrlWrite v => exact stateInv_writeCtrl hs (v.getLsbD 3) (v.getLsbD 2) (v.getLsbD 0)
  | softReset => exact stateInv_softReset hs
  | memWrite _ _ _ inMem => exact stateInv_memWrite hs inMem

/-! ### What changes each piece of state -/

theorem raiseError_none_eq_failed (s : State) (p : Latch) (e : ErrCode) :
    s.raiseError p e none = failed p e 0xFFFFFFFF s := rfl

theorem port_of_needsKey {i : Instr} (h : needsKey i = true) : i.port = .cmd := by
  cases i <;> simp [needsKey] at h <;> rfl

/-- Settles O15: the key is the first check of each of the four rules. -/
theorem commandsWithoutKeyReportNoKey : Obligations.CommandsWithoutKeyReportNoKey := by
  unfold Obligations.CommandsWithoutKeyReportNoKey
  intro i s p hneeds hp hk
  rw [exec_eq_runCommand (port_of_needsKey hneeds), runCommand_raise hp (rule_noKey hneeds p hk), raiseError_none_eq_failed]

/-- Settles O45: of all moves, only a completed KEYSET and SRST touch the three key fields. -/
theorem onlyKeysetAndSoftResetChangeTheKey : Obligations.OnlyKeysetAndSoftResetChangeTheKey := by
  unfold Obligations.OnlyKeysetAndSoftResetChangeTheKey
  intro s t h hc
  cases move_of_step h with
  | succeeded turn pending effect =>
    obtain ⟨hi, hvalid⟩ := effect.keyset_of_key_changed hc
    exact .inl ⟨turn, _, pending, hi, rfl, hvalid⟩
  | softReset access srst => exact .inr ⟨_, _, access, srst⟩
  | raised | quiet | operandWrite | overrun | accepted | ctrlWrite | memWrite => simp at hc

/-- A step that changes BKMAT is a completion of BKGEN or BXFORM, or SRST (10_state.md R38). -/
theorem step_changes_bkmat {s t : State} (h : step s = .next t) (hc : t.bkmat ≠ s.bkmat) :
    (EngineNext s ∧ ∃ p, s.pend = some p ∧ (decode .cmd p.cmd = .bkgen ∨ decode .cmd p.cmd = .bxform) ∧ t.err = .noError) ∨
    (∃ v rest, s.events = .host (.write 32 0x0008 v) :: rest ∧ v.getLsbD 1 = true) := by
  cases move_of_step h with
  | succeeded turn pending effect =>
    exact .inl ⟨turn, _, pending, effect.bkgen_or_bxform_of_bkmat_changed hc, rfl⟩
  | softReset access srst => exact .inr ⟨_, _, access, srst⟩
  | raised | quiet | operandWrite | overrun | accepted | ctrlWrite | memWrite => simp at hc

/-- A step that changes BLK_IDX is a completion of BXFORM, a host write to it, or SRST (10_state.md R32). -/
theorem step_changes_blkIdx {s t : State} (h : step s = .next t) (hc : t.blkIdx ≠ s.blkIdx) :
    (EngineNext s ∧ ∃ p, s.pend = some p ∧ decode .cmd p.cmd = .bxform ∧ t.blkIdx = p.blkIdx + 1) ∨
    (∃ v rest, s.events = .host (.write 32 0x0024 v) :: rest ∧ t.blkIdx = v) ∨
    (∃ v rest, s.events = .host (.write 32 0x0008 v) :: rest ∧ v.getLsbD 1 = true) := by
  cases move_of_step h with
  | succeeded turn pending effect =>
    obtain ⟨hi, hblk⟩ := effect.bxform_of_blkIdx_changed hc
    exact .inl ⟨turn, _, pending, hi, hblk⟩
  | operandWrite src len aux dst blk access blkWrite =>
    rcases blkWrite with hsame | ⟨rfl, hv⟩
    · exact absurd hsame hc
    · exact .inr (.inl ⟨_, _, access, hv⟩)
  | softReset access srst => exact .inr (.inr ⟨_, _, access, srst⟩)
  | raised | quiet | overrun | accepted | ctrlWrite | memWrite => simp at hc

/-- Settles O46, one register after the other. -/
theorem writersOfBkmatAndBlkIdx : Obligations.WritersOfBkmatAndBlkIdx := by
  unfold Obligations.WritersOfBkmatAndBlkIdx
  exact fun s t h => ⟨step_changes_bkmat h, step_changes_blkIdx h⟩

/-- A CMD write as a step (44_control.md R180). -/
theorem step_write_cmd {s : State} {v : Word} {rest : List Event} (h : s.events = .host (.write 32 0x0010 v) :: rest) :
    step s = .next (writeCmd { s with events := rest } v) := step_write_reg (r := .cmd) h rfl rfl

/-- A step that sets OVR is a CMD write to the busy engine (10_state.md R43). -/
theorem step_sets_ovr {s t : State} (h : step s = .next t) (h0 : s.ovr = false) (h1 : t.ovr = true) :
    s.pend ≠ none ∧ ∃ v rest, s.events = .host (.write 32 0x0010 v) :: rest := by
  cases move_of_step h with
  | overrun access busy => exact ⟨busy, _, _, access⟩
  | succeeded _ _ effect => simp [effect.ovr_eq, h0] at h1
  | raised | quiet | operandWrite | accepted | ctrlWrite | softReset | memWrite => simp [h0] at h1

/-- A step that clears OVR is a CTRL write with OVRCLR or SRST (10_state.md R43). -/
theorem step_clears_ovr {s t : State} (h : step s = .next t) (h1 : s.ovr = true) (h0 : t.ovr = false) :
    ∃ v rest, s.events = .host (.write 32 0x0008 v) :: rest ∧ (v.getLsbD 1 = true ∨ v.getLsbD 3 = true) := by
  cases move_of_step h with
  | softReset access srst => exact ⟨_, _, access, .inl srst⟩
  | ctrlWrite access _ => exact ⟨_, _, access, .inr (by simpa [h1] using h0)⟩
  | succeeded _ _ effect => simp [effect.ovr_eq, h1] at h0
  | raised | quiet | operandWrite | overrun | accepted | memWrite => simp [h1] at h0

/-- Settles O47: a CMD write to the busy engine is an overrun, and among the moves only it sets OVR. -/
theorem overrunIsSticky : Obligations.OverrunIsSticky := by
  unfold Obligations.OverrunIsSticky
  refine fun s t h => ⟨fun v rest hbusy hev => ?_, step_sets_ovr h, step_clears_ovr h⟩
  rw [step_write_cmd hev, writeCmd_busy (s := { s with events := rest }) hbusy] at h
  exact (Host.Outcome.next.inj h).symm

theorem irq_of_completion {i : Instr} {s t : State} (hi : i.port = .cmd) (h : exec i s = .next t) : t.irq = s.ie := by
  obtain ⟨p, hp⟩ := exec_command_pending hi h
  rcases exec_command_cases hi hp h with ⟨u, hu, rfl⟩ | ⟨e, pos, _, _, rfl⟩
  · simp [hu.ie_eq]
  · simp

/-- Settles O51: a completion sets DONE and leaves IE; the other three clear DONE. -/
theorem interruptLine : Obligations.InterruptLine := by
  unfold Obligations.InterruptLine
  refine ⟨fun i s t => irq_of_completion, fun s t v rest hidle hev h => ?_, fun s t o e h => ?_, fun s t h => ?_⟩
  · rw [step_write_cmd hev, writeCmd_idle (s := { s with events := rest }) hidle] at h
    cases h
    simp
  · cases h
    simp
  · cases h
    simp

end Sys2Proof.Machine
end

section
/-! The register port: what a host read or write of each register does, and which accesses are bus errors (10_state.md R22 to
R47). -/

namespace Sys2Proof.Machine

/-! ### The values of the registers that have fields -/

theorem toNat_append_eq_add {m n : Nat} (x : BitVec m) (y : BitVec n) :
    (x ++ y).toNat = 2 ^ n * x.toNat + y.toNat := by
  rw [BitVec.toNat_append, ← Nat.shiftLeft_add_eq_or_of_lt y.isLt, Nat.shiftLeft_eq, Nat.mul_comm]

/-- Row i of a matrix register, little-endian (10_state.md R39). -/
theorem rowWord_toNat (m : ByteMatrix) (i : Fin 4) :
    (rowWord m i).toNat = (m[4 * i.val]).toNat + 256 * (m[4 * i.val + 1]).toNat + 65536 * (m[4 * i.val + 2]).toNat
      + 16777216 * (m[4 * i.val + 3]).toNat := leWord_toNat _ _ _ _

theorem ctrlWordRead_toNat (s : State) : s.ctrlWordRead.toNat = if s.ie then 1 else 0 := by
  rw [State.ctrlWordRead, toNat_append_eq_add, BitVec.toNat_ofBool, Bool.toNat, Bool.cond_eq_ite]
  simp

/-- STATUS as the sum of its fields at their places (10_state.md R26). -/
theorem statusWord_toNat (s : State) :
    s.statusWord.toNat = (if s.pend.isSome then 1 else 0) + 2 * (if s.done then 1 else 0) + 4 * (if s.keyValid then 1 else 0)
      + 8 * (if s.ovr then 1 else 0) + 16 * (errBits s.err).toNat + 256 * s.lastOp.toNat := by
  simp only [State.statusWord, toNat_append_eq_add, BitVec.toNat_ofBool, Bool.toNat, Bool.cond_eq_ite, busy_eq,
    BitVec.toNat_ofNat]
  omega

/-- The code table of 60_exceptions.md R200. -/
theorem errBits_toNat (e : ErrCode) :
    (errBits e).toNat =
      if e = .invalidKey then 1 else if e = .malformedInput then 2 else if e = .encodingError then 3
      else if e = .noKey then 4 else if e = .illegalCommand then 5 else if e = .badRegion then 6 else 0 := by
  cases e <;> rfl

/-! ### Register accesses -/

theorem regAt_aligned {a : Nat} {r : PortReg} (h : regAt a = some r) : a % 4 = 0 := by
  unfold regAt at h
  split at h <;> simp_all

/-- No register's value depends on the coming events. -/
theorem readReg_events (s : State) (es : List Event) (r : PortReg) : readReg { s with events := es } r = readReg s r := by
  cases r <;> rfl

/-- A host read of the register at offset `a`, when that register holds `n`. -/
theorem step_reads_register {s : State} {rest : List Event} {a n : Nat} (r : PortReg)
    (hr : regAt (BitVec.ofNat 32 a).toNat = some r) (hn : (readReg s r).toNat = n)
    (h : s.events = .host (.read 32 (BitVec.ofNat 32 a)) :: rest) :
    ∃ w : Word, w.toNat = n ∧ step s = .next { s with events := rest, readback := w :: s.readback } :=
  ⟨readReg s r, hn, by rw [step_read_reg h hr (regAt_aligned hr), readReg_events]; rfl⟩

/-- Settles O52, register by register of the map of 10_state.md R22. -/
theorem registerReads : Obligations.RegisterReads := by
  unfold Obligations.RegisterReads
  intro s rest bit row code status
  have hstatus : s.statusWord.toNat = status := by rw [statusWord_toNat, errBits_toNat]
  have hrow : ∀ m i, (rowWord m i).toNat = row m i := rowWord_toNat
  simp only [List.forall_mem_cons, List.not_mem_nil, false_implies, implies_true, and_true]
  exact ⟨step_reads_register .id rfl rfl, step_reads_register .memsize rfl (BitVec.toNat_ofNat _ _),
    step_reads_register .ctrl rfl (ctrlWordRead_toNat s), step_reads_register .status rfl hstatus,
    step_reads_register .cmd rfl rfl, step_reads_register .srcAddr rfl rfl,
    step_reads_register .srcLen rfl rfl, step_reads_register .auxAddr rfl rfl,
    step_reads_register .dstAddr rfl rfl, step_reads_register .blkIdx rfl rfl,
    step_reads_register .outLen rfl rfl, step_reads_register .errPos rfl rfl,
    step_reads_register (.keypad 0) rfl (hrow _ _), step_reads_register (.keypad 1) rfl (hrow _ _),
    step_reads_register (.keypad 2) rfl (hrow _ _), step_reads_register (.keypad 3) rfl (hrow _ _),
    step_reads_register (.keymat 0) rfl (hrow _ _), step_reads_register (.keymat 1) rfl (hrow _ _),
    step_reads_register (.keymat 2) rfl (hrow _ _), step_reads_register (.keymat 3) rfl (hrow _ _),
    step_reads_register (.bkmat 0) rfl (hrow _ _), step_reads_register (.bkmat 1) rfl (hrow _ _),
    step_reads_register (.bkmat 2) rfl (hrow _ _), step_reads_register (.bkmat 3) rfl (hrow _ _)⟩

/-- Settles O53: each operand register stores what is written to its offset. -/
theorem operandRegisterWrites : Obligations.OperandRegisterWrites := by
  unfold Obligations.OperandRegisterWrites
  intro s v rest
  exact ⟨fun h => step_write_reg (r := .srcAddr) h rfl rfl, fun h => step_write_reg (r := .srcLen) h rfl rfl,
    fun h => step_write_reg (r := .auxAddr) h rfl rfl, fun h => step_write_reg (r := .dstAddr) h rfl rfl,
    fun h => step_write_reg (r := .blkIdx) h rfl rfl⟩

/-- The registers that ignore a host write (10_state.md R47 item 3). -/
def PortReg.readOnly : PortReg → Bool
  | .id | .memsize | .status | .outLen | .errPos | .keypad _ | .keymat _ | .bkmat _ => true
  | .ctrl | .cmd | .srcAddr | .srcLen | .auxAddr | .dstAddr | .blkIdx => false

theorem perform_writeReg_readOnly {r : PortReg} (h : r.readOnly = true) (s : State) (v : Word) :
    perform (writeReg s r v) = .next s := by
  cases r <;> simp [PortReg.readOnly] at h <;> rfl

/-- Settles O54: each of the offsets is that of a read-only register. -/
theorem readOnlyRegistersIgnoreWrites : Obligations.ReadOnlyRegistersIgnoreWrites := by
  unfold Obligations.ReadOnlyRegistersIgnoreWrites
  intro s v rest a ha
  have hreg : (regAt (BitVec.ofNat 32 a).toNat).any PortReg.readOnly = true := by
    revert a
    decide
  obtain ⟨r, hr, hro⟩ := (Option.any_eq_true _ _).mp hreg
  intro hev
  rw [step_write_reg hev hr (regAt_aligned hr), perform_writeReg_readOnly hro]

/-! ### Illegal accesses -/

theorem regAt_unmapped {a : Nat} (h : 0x0060 ≤ a) : regAt a = none := by
  cases hr : regAt a with
  | none => rfl
  | some r =>
    have := regAt_lt hr
    omega

/-- An illegal access reaches neither a register nor a word of MEM (10_state.md R47 items 1 and 2). -/
theorem targetOf_illegal {s : State} {bits : Nat} {a : Word}
    (h : bits ≠ 32 ∨ a.toNat % 4 ≠ 0 ∨ (0x0060 ≤ a.toNat ∧ a.toNat < 0x10000) ∨ 0x10000 + s.config.memSize ≤ a.toNat) :
    targetOf s bits a = .nowhere := by
  cases ht : targetOf s bits a with
  | nowhere => rfl
  | reg r =>
    obtain ⟨hbits, hr⟩ := targetOf_reg ht
    have hlt := regAt_lt hr
    have h4 := regAt_aligned hr
    omega
  | mem x =>
    obtain ⟨hbits, h4, hlow, hx, hin⟩ := targetOf_mem ht
    omega

/-- Settles O55: such an access has no target. -/
theorem illegalAccessesAreBusErrors : Obligations.IllegalAccessesAreBusErrors := by
  unfold Obligations.IllegalAccessesAreBusErrors
  intro s bits a v rest h
  have hnowhere : targetOf { s with events := rest } bits a = .nowhere := targetOf_illegal h
  exact ⟨fun hev => by rw [step_host hev, hostAccess, hnowhere]; rfl,
    fun hev => by rw [step_host hev, hostAccess, hnowhere]; rfl⟩

end Sys2Proof.Machine
end

section
/-! What the message memory keeps: which bytes a completion, a soft reset and a host access change, and which bytes a
completion reads (20_memory.md). -/

namespace Sys2Proof.Machine

/-! ### Regions that fail -/

/-- Settles O16: after the key, the regions are the first check of each rule. -/
theorem badRegionsAreReported : Obligations.BadRegionsAreReported := by
  unfold Obligations.BadRegionsAreReported
  intro i s p hi hp hkey hbad
  rw [exec_eq_runCommand hi, runCommand_raise hp (rule_badRegion hi hkey hbad), raiseError_none_eq_failed]

/-! ### Which bytes change -/

theorem not_inDestination {i : Instr} {p : Latch} {x : Nat} {d : Region} (hd : (operandRegions i p).dst = some d)
    (hx : ¬ InDestination i p x) : x < d.addr ∨ d.addr + d.size ≤ x := by
  by_contra hc
  exact hx ⟨d, hd, by omega⟩

/-- What a command stores lies in its destination. -/
theorem CommandEffect.read_eq {i : Instr} {p : Latch} {s u : State} (h : CommandEffect i p s u) {x : Nat}
    (hx : ¬ InDestination i p x) : u.mem.read x = s.mem.read x := by
  rcases h.mem with ⟨hm, _⟩ | ⟨d, bs, hd, hlen, hm, _⟩ <;> rw [hm]
  have hout := not_inDestination hd hx
  exact read_write_outside _ _ _ _ (by omega)

/-- Settles O20: a success stores in its destination only, an error stores nothing. -/
theorem completionWritesOnlyItsDestination : Obligations.CompletionWritesOnlyItsDestination := by
  unfold Obligations.CompletionWritesOnlyItsDestination
  intro i s t p hi hp h x hx
  rcases exec_command_cases hi hp h with ⟨u, hu, rfl⟩ | ⟨e, pos, _, _, rfl⟩
  · exact hu.read_eq hx
  · rfl

/-- A byte that the soft reset changes lies in the destination of the command it aborts, and becomes unwritten
(44_control.md R184). -/
theorem read_memAfterReset_of_changed {s : State} {x : Nat} (hc : (memAfterReset s).read x ≠ s.mem.read x) :
    (memAfterReset s).read x = none ∧ ∃ p, s.pend = some p ∧ InDestination (decode .cmd p.cmd) p x := by
  unfold memAfterReset at hc ⊢
  cases habort : abortRegion s with
  | none => simp [habort] at hc
  | some d =>
    simp only [habort, read_forget] at hc ⊢
    split at hc <;> [skip; contradiction]
    next hin =>
    refine ⟨if_pos hin, ?_⟩
    simp only [abortRegion] at habort
    cases hp : s.pend with
    | none => simp [hp] at habort
    | some p =>
      simp only [hp, Option.ite_none_right_eq_some] at habort
      exact ⟨p, rfl, d, habort.2, hin⟩

/-- Settles O48: of all moves, only a successful completion, SRST and a host write of a MEM word touch MEM. -/
theorem whatChangesMemory : Obligations.WhatChangesMemory := by
  unfold Obligations.WhatChangesMemory
  intro s t x h hc
  cases move_of_step h with
  | @succeeded p _ _ turn pending effect =>
    have hdst : InDestination (decode .cmd p.cmd) p x := by
      by_contra hx
      exact hc (effect.read_eq hx)
    exact .inl ⟨turn, p, pending, hdst⟩
  | @memWrite a v rest access idle inWindow =>
    have hword : ¬ (x < a.toNat - 0x10000 ∨ a.toNat - 0x10000 + 4 ≤ x) :=
      fun hout => hc (read_write_outside _ _ (leBytes v) _ hout)
    exact .inr (.inl ⟨idle, a, v, rest, access, inWindow, by omega, by omega⟩)
  | @softReset v rest access srst =>
    obtain ⟨hnone, p, hp, hdst⟩ := read_memAfterReset_of_changed (s := { s with events := rest }) hc
    exact .inr (.inr ⟨hnone, p, v, rest, hp, access, srst, hdst⟩)
  | raised | quiet | operandWrite | overrun | accepted | ctrlWrite => simp at hc

/-! ### The window on an idle engine -/

/-- A host write of a MEM word on an idle engine (20_memory.md R51). -/
theorem writeWindow_idle {s : State} (h : s.pend = none) (a : Nat) (v : Word) :
    writeWindow s a v = .next { s with mem := s.mem.write a (leBytes v) } := by
  simp [writeWindow, h]

/-- A host read of a written MEM word on an idle engine (20_memory.md R51). -/
theorem readWindow_written {s : State} {a : Nat} {w : Word} (h : s.pend = none) (hw : s.mem.readWord a = some w) :
    readWindow s a = .next (s.returned w) := by
  simp [readWindow, h, hw]

/-- A host read of a MEM word with an unwritten byte on an idle engine (20_memory.md R53). -/
theorem readWindow_unwritten {s : State} {a : Nat} (h : s.pend = none) (hw : s.mem.readWord a = none) :
    readWindow s a = .fault .unwrittenRead := by
  simp [readWindow, h, hw]

theorem leWord_eq_ofNat (b0 b1 b2 b3 : Byte) :
    leWord b0 b1 b2 b3 = BitVec.ofNat 32 (b0.toNat + 256 * b1.toNat + 65536 * b2.toNat + 16777216 * b3.toNat) := by
  rw [← leWord_toNat, BitVec.ofNat_toNat, BitVec.setWidth_eq]

theorem read_write_leBytes (m : Memory) (a : Nat) (v : Word) {k : Nat} (hk : k < 4) :
    (m.write a (leBytes v)).read (a + k) = some (BitVec.ofNat 8 (v.toNat / 256 ^ k)) := by
  rw [read_write_inside _ _ _ _ (by simpa using hk), ← List.getElem?_eq_getElem, leBytes_getElem? v k hk]

/-- Settles O56: the write stores the four bytes of the word; the read takes the word of the four bytes, if all are written. -/
theorem memWindowAccesses : Obligations.MemWindowAccesses := by
  unfold Obligations.MemWindowAccesses
  intro s a v rest hidle hlow h4 hin
  refine ⟨fun hev => ?_, fun f hev hf => ?_, fun k hk hnone hev => ?_⟩
  · rw [step_write_mem hev h4 hlow hin, writeWindow_idle (s := { s with events := rest }) hidle]
    exact ⟨_, rfl, rfl, fun k => read_write_leBytes _ _ _, fun x => read_write_outside _ _ (leBytes v) x⟩
  · rw [step_read_mem hev h4 hlow hin, ← leWord_eq_ofNat]
    exact readWindow_written (s := { s with events := rest }) hidle (readWord_of_holds hf)
  · rw [step_read_mem hev h4 hlow hin]
    exact readWindow_unwritten (s := { s with events := rest }) hidle ((readWord_eq_none _ _).mpr ⟨k, hk, hnone⟩)

end Sys2Proof.Machine
end

section
/-! A completion reads no byte of MEM outside its source regions: run from two memories that agree there, a command's rule
makes the same choices and stores the same bytes (20_memory.md R58, R68). -/

namespace Sys2Proof.Machine

/-! ### The same outcome from two memories -/

/-- How a rule ends from memory `m` and from memory `m'` when it does the same in both: it stops alike, or it answers states
that are equal but for MEM, in which both memories are as they were or hold the same new bytes at the same place. -/
inductive SameOutcome (m m' : Memory) : Checked State → Checked State → Prop
  | stopped (e : Stop) : SameOutcome m m' (.error e) (.error e)
  | kept (u : State) (unchanged : u.mem = m) : SameOutcome m m' (.ok u) (.ok { u with mem := m' })
  | stored (u : State) (a : Nat) (bs : List Byte) (written : u.mem = m.write a bs) :
      SameOutcome m m' (.ok u) (.ok { u with mem := m'.write a bs })

/-- After equal first parts it is enough that the remainders end alike. -/
theorem SameOutcome.bind {α : Type} {m m' : Memory} {x y : Checked α} {f g : α → Checked State} (hxy : x = y)
    (h : ∀ a, SameOutcome m m' (f a) (g a)) : SameOutcome m m' (x >>= f) (y >>= g) := by
  subst hxy
  cases x with
  | ok a => exact h a
  | error e => exact .stopped e

/-- The two memories agree on the source regions of a command. -/
def SameSources (i : Instr) (p : Latch) (m m' : Memory) : Prop :=
  ∀ r ∈ (operandRegions i p).srcs, ∀ k, k < r.size → m'.read (r.addr + k) = m.read (r.addr + k)

theorem SameSources.memRead {i : Instr} {p : Latch} {s : State} {m : Memory} (h : SameSources i p s.mem m) {a : Word} {n : Nat}
    (hr : byteRegion a n ∈ (operandRegions i p).srcs) :
    memRead s a.toNat n = memRead { s with mem := m } a.toNat n :=
  congrArg orFault (readBytes_congr (h _ hr)).symm

theorem SameSources.cpRead {i : Instr} {p : Latch} {s : State} {m : Memory} (h : SameSources i p s.mem m) {a : Word} {n : Nat}
    (hr : textRegion a n ∈ (operandRegions i p).srcs) :
    cpRead s a.toNat n = cpRead { s with mem := m } a.toNat n :=
  congrArg orFault (readText_congr (h _ hr)).symm

/-- A rule reads MEM in its source regions only: its checks are the same in both memories, its reads agree, and what it
stores comes from what it has read. -/
theorem rule_sameOutcome (i : Instr) {p : Latch} {s : State} {m : Memory} (h : SameSources i p s.mem m) :
    SameOutcome s.mem m (commandRule i p s) (commandRule i p { s with mem := m }) := by
  cases i with
  | nop => exact .kept _ rfl
  | illegal | srst | doneclr | ovrclr | ctrlwr => exact .stopped _
  | bkgen => exact .bind rfl fun _ => .kept _ rfl
  | keyset =>
    exact .bind rfl fun _ => .bind rfl fun _ => .bind (h.cpRead (.head _)) fun _ => .bind rfl fun _ => .kept _ rfl
  | xorm =>
    exact .bind rfl fun _ => .bind (h.memRead (.head _)) fun _ => .bind (h.memRead (.tail _ (.head _))) fun _ =>
      .stored _ _ _ rfl
  | bxform => exact .bind rfl fun _ => .bind rfl fun _ => .bind (h.memRead (.head _)) fun _ => .stored _ _ _ rfl
  | frame | hexenc | txtdec => exact .bind rfl fun _ => .bind (h.memRead (.head _)) fun _ => .stored _ _ _ rfl
  | hexdec | txtenc =>
    exact .bind rfl fun _ => .bind (h.cpRead (.head _)) fun _ => .bind rfl fun _ => .stored _ _ _ rfl
  | encrypt =>
    exact .bind rfl fun _ => .bind rfl fun _ => .bind (h.cpRead (.head _)) fun _ => .bind rfl fun _ => .stored _ _ _ rfl
  | decrypt =>
    exact .bind rfl fun _ => .bind rfl fun _ => .bind (h.cpRead (.head _)) fun _ => .bind rfl fun _ => .bind rfl fun _ =>
      .stored _ _ _ rfl

/-! ### The same completion -/

/-- After one store in two memories a byte is the stored one in both, or unchanged in both. -/
theorem read_write_both (m m' : Memory) (a : Nat) (bs : List Byte) (x : Nat) :
    (m'.write a bs).read x = (m.write a bs).read x ∨
      ((m.write a bs).read x = m.read x ∧ (m'.write a bs).read x = m'.read x) := by
  simp only [read_write]
  split
  · exact .inl rfl
  · exact .inr ⟨rfl, rfl⟩

/-- A rule that ends alike completes alike: the next states are equal but for MEM, and each byte of MEM is the same in both
or unchanged in both. -/
theorem runCommand_sameOutcome {rule : Latch → State → Checked State} {s t : State} {p : Latch} {m : Memory}
    (hp : s.pend = some p) (hsame : SameOutcome s.mem m (rule p s) (rule p { s with mem := m }))
    (h : runCommand rule s = .next t) :
    ∃ u, runCommand rule { s with mem := m } = .next u ∧ u = { t with mem := u.mem } ∧
      ∀ x, u.mem.read x = t.mem.read x ∨ (t.mem.read x = s.mem.read x ∧ u.mem.read x = m.read x) := by
  have hp' : ({ s with mem := m } : State).pend = some p := hp
  generalize hr : rule p s = r, hr' : rule p { s with mem := m } = r' at hsame
  cases hsame with
  | stopped e =>
    cases e with
    | raise e pos =>
      obtain rfl := Host.Outcome.next.inj ((runCommand_raise hp hr).symm.trans h)
      exact ⟨_, runCommand_raise hp' hr', rfl, fun x => .inr ⟨rfl, rfl⟩⟩
    | fault f => cases (runCommand_fault hp hr).symm.trans h
  | kept u unchanged =>
    obtain rfl := Host.Outcome.next.inj ((runCommand_ok hp hr).symm.trans h)
    refine ⟨_, runCommand_ok hp' hr', rfl, fun x => .inr ⟨?_, rfl⟩⟩
    rw [succeed_mem, unchanged]
  | stored u a bs written =>
    obtain rfl := Host.Outcome.next.inj ((runCommand_ok hp hr).symm.trans h)
    refine ⟨_, runCommand_ok hp' hr', rfl, fun x => ?_⟩
    rw [succeed_mem, succeed_mem, written]
    exact read_write_both s.mem m a bs x

/-- Settles O50: a command completes as its rule ends. -/
theorem completionReadsOnlyItsSources : Obligations.CompletionReadsOnlyItsSources := by
  unfold Obligations.CompletionReadsOnlyItsSources
  intro i s t p m hi hp h hsrc
  rw [exec_eq_runCommand hi] at h ⊢
  exact runCommand_sameOutcome hp (rule_sameOutcome i hsrc) h

end Sys2Proof.Machine
end

section
/-! The decoder and the encoder are inverse on well-formed instructions, and the region check of each command is its row of
the operand table (30_encoding.md). -/

namespace Sys2Proof.Machine

/-! ### CMD words -/

/-- The assigned command words are 0x00 to 0x0B (30_encoding.md R70, R72). -/
theorem assignedCommand_iff (w : Word) : assignedCommand w = true ↔ w.toNat < 12 := by
  have hrsv : (w.extractLsb' 8 24 == 0) = true ↔ w.toNat / 256 = 0 := by
    have := w.isLt
    rw [beq_iff_eq, ← BitVec.toNat_inj, BitVec.extractLsb'_toNat, Nat.shiftRight_eq_div_pow]
    change w.toNat / 2 ^ 8 % 2 ^ 24 = 0 ↔ _
    omega
  have hopc : (w.extractLsb' 0 8).toNat = w.toNat % 256 := by simp [BitVec.extractLsb'_toNat]
  rw [assignedCommand, Bool.and_eq_true, hrsv, decide_eq_true_iff, hopc]
  omega

theorem assignedCommand_eq_false_iff (w : Word) : assignedCommand w = false ↔ 12 ≤ w.toNat := by
  rw [← Bool.not_eq_true, assignedCommand_iff, Nat.not_lt]

/-- An assigned word is decoded to a command other than `illegal`, and that command's word is it (30_encoding.md R72). -/
theorem decodeCmd_assigned {w : Word} (h : assignedCommand w = true) :
    decodeCmd w ≠ .illegal w ∧ (decodeCmd w).wellFormed = true ∧ encode (decodeCmd w) = w := by
  have htable : ∀ k < 12, decodeCmd (BitVec.ofNat 32 k) ≠ .illegal (BitVec.ofNat 32 k) ∧
      (decodeCmd (BitVec.ofNat 32 k)).wellFormed = true ∧
      encode (decodeCmd (BitVec.ofNat 32 k)) = BitVec.ofNat 32 k := by decide
  simpa using htable w.toNat ((assignedCommand_iff w).mp h)

/-- Every other word is decoded to `illegal` (30_encoding.md R73, R75). -/
theorem decodeCmd_unassigned {w : Word} (h : assignedCommand w = false) : decodeCmd w = .illegal w := by
  unfold decodeCmd
  split
  · rfl
  next hrsv =>
    have hopc : 0x0B < (opcField w).toNat := by
      have hrsv0 : w.extractLsb' 8 24 = 0 := not_not.mp hrsv
      simpa [assignedCommand, opcField, hrsv0] using h
    split
    case h_13 => rfl
    all_goals omega

theorem decodeCmd_eq_illegal_iff (w : Word) : decodeCmd w = .illegal w ↔ 12 ≤ w.toNat := by
  rw [← assignedCommand_eq_false_iff]
  refine ⟨fun h => ?_, decodeCmd_unassigned⟩
  by_contra hassigned
  exact (decodeCmd_assigned (Bool.eq_true_of_not_eq_false hassigned)).1 h

/-- Every CMD word is the encoding of the well-formed instruction it is decoded to. -/
theorem encode_decodeCmd (w : Word) : (decodeCmd w).wellFormed = true ∧ encode (decodeCmd w) = w := by
  cases h : assignedCommand w with
  | true => exact (decodeCmd_assigned h).2
  | false => simp [decodeCmd_unassigned h, Instr.wellFormed, encode, h]

/-! ### CTRL words -/

/-- The three bits that a CTRL word with bit 1 = 0 carries (10_state.md R25). -/
theorem ctrlWord_getLsbD (o d e : Bool) :
    (ctrlWord o d e).getLsbD 3 = o ∧ (ctrlWord o d e).getLsbD 2 = d ∧ (ctrlWord o d e).getLsbD 1 = false ∧
      (ctrlWord o d e).getLsbD 0 = e := by
  revert o d e
  decide

/-- A CTRL word with bit 1 = 0 is named by the first row of the table that its bits match (log entry 5). -/
theorem decodeCtrl_ctrlWord (o d e : Bool) :
    decodeCtrl (ctrlWord o d e) = if d then .doneclr o e else if o then .ovrclr false e else .ctrlwr false false e := by
  obtain ⟨h3, h2, h1, h0⟩ := ctrlWord_getLsbD o d e
  rw [decodeCtrl, h3, h2, h1, h0]
  rfl

/-- Bits 31:4 of a word below 16 are 0. -/
theorem getLsbD_of_toNat_lt {w : Word} (h : w.toNat < 2 ^ 4) (k : Nat) : w.getLsbD (k + 4) = false :=
  Nat.testBit_lt_two_pow (h.trans_le (Nat.pow_le_pow_right (by omega) (by omega)))

theorem ctrlWord_toNat_lt (o d e : Bool) : (ctrlWord o d e).toNat < 2 ^ 4 := by
  revert o d e
  decide

/-- Masking bits 3, 2 and 0 of a word leaves the CTRL word that carries them: the bits of 44_control.md R183. -/
theorem and_0xD_eq_ctrlWord (w : Word) :
    w &&& 0x0000000D = ctrlWord (w.getLsbD 3) (w.getLsbD 2) (w.getLsbD 0) := by
  obtain ⟨h3, h2, h1, h0⟩ := ctrlWord_getLsbD (w.getLsbD 3) (w.getLsbD 2) (w.getLsbD 0)
  refine BitVec.eq_of_getLsbD_eq fun i _ => ?_
  rw [BitVec.getLsbD_and]
  match i with
  | 0 => rw [h0]; exact Bool.and_true _
  | 1 => rw [h1]; exact Bool.and_false _
  | 2 => rw [h2]; exact Bool.and_true _
  | 3 => rw [h3]; exact Bool.and_true _
  | k + 4 =>
    have hmask : (0x0000000D : Word).getLsbD (k + 4) = false := getLsbD_of_toNat_lt (by decide) k
    rw [getLsbD_of_toNat_lt (ctrlWord_toNat_lt _ _ _), hmask, Bool.and_false]

/-- Each branch of the decoder keeps the bits it does not fix. -/
theorem encode_decodeCtrl {w : Word} (h : w.getLsbD 1 = false) :
    encode (decodeCtrl w) = ctrlWord (w.getLsbD 3) (w.getLsbD 2) (w.getLsbD 0) := by
  unfold decodeCtrl
  rw [h]
  cases h2 : w.getLsbD 2 <;> cases h3 : w.getLsbD 3 <;> rfl

theorem decodeCtrl_wellFormed (w : Word) : (decodeCtrl w).wellFormed = true ∧ (decodeCtrl w).port = .ctrl := by
  unfold decodeCtrl
  split
  · exact ⟨rfl, rfl⟩
  split
  · exact ⟨rfl, rfl⟩
  split <;> exact ⟨rfl, rfl⟩

/-! ### Both directions -/

/-- Settles O1: a command's word is its table row, an unassigned word is kept whole, and a CTRL word carries its three bits. -/
theorem decodeOfEncodeIsTheInstruction : Obligations.DecodeOfEncodeIsTheInstruction := by
  unfold Obligations.DecodeOfEncodeIsTheInstruction
  intro i hi
  cases i with
  | nop | keyset | bkgen | xorm | bxform | frame | hexenc | hexdec | txtenc | txtdec | encrypt | decrypt => decide
  | srst => decide
  | illegal w => exact decodeCmd_unassigned ((Bool.not_eq_true' _).mp hi)
  | doneclr o e => exact decodeCtrl_ctrlWord o true e
  | ovrclr d e =>
    obtain rfl : d = false := by simpa [Instr.wellFormed] using hi
    exact decodeCtrl_ctrlWord true false e
  | ctrlwr o d e =>
    obtain ⟨rfl, rfl⟩ : o = false ∧ d = false := by simpa [Instr.wellFormed] using hi
    exact decodeCtrl_ctrlWord false false e

/-- Settles O2: a CMD word is decoded with nothing dropped, a CTRL word with its ignored bits dropped. -/
theorem everyWordIsOneInstruction : Obligations.EveryWordIsOneInstruction := by
  unfold Obligations.EveryWordIsOneInstruction
  intro w
  obtain ⟨hwf, henc⟩ := encode_decodeCmd w
  obtain ⟨hwf', hport'⟩ := decodeCtrl_wellFormed w
  refine ⟨⟨hwf, decodeCmd_port w, henc⟩, hwf', hport', ?_⟩
  split
  next h => rw [decodeCtrl_srst h]; rfl
  next h => rw [and_0xD_eq_ctrlWord]; exact encode_decodeCtrl (Bool.eq_false_of_not_eq_true h)

/-- Settles O3: the assigned words are those below 12. -/
theorem reservedWordsAreIllegalCommands : Obligations.ReservedWordsAreIllegalCommands := by
  unfold Obligations.ReservedWordsAreIllegalCommands
  intro w
  rw [decode, decodeCmd_eq_illegal_iff]
  omega

/-- Settles O4: both decoders run on the twelve words. -/
theorem tableWordsDecode : Obligations.TableWordsDecode := by
  unfold Obligations.TableWordsDecode
  decide

/-! ### The operand table -/

/-- The regions of a command with one source and a destination (20_memory.md R56, R57). -/
theorem ok_src_dst (M : Nat) (r d : Region) :
    (Regions.ok M { srcs := [r], dst := some d }) = true ↔
      regionValid M r.addr r.size r.align ∧ regionValid M d.addr d.size d.align ∧
        ¬ regionsOverlap d.addr d.size r.addr r.size := by
  simp only [ok_dst, List.forall_mem_singleton]

/-- A matrix of 16 bytes is never empty and has no alignment. -/
theorem blockRegion_valid (M a : Nat) : regionValid M a 16 1 ↔ a + 16 ≤ M := by
  omega

theorem blockRegions_apart (a b : Nat) : ¬ regionsOverlap a 16 b 16 ↔ a + 16 ≤ b ∨ b + 16 ≤ a := by
  omega

/-- Settles O14: each row has one source and a destination, but for KEYSET without a destination, XORM with two sources,
and NOP and BKGEN with no region. -/
theorem regionTable : Obligations.RegionTable := by
  unfold Obligations.RegionTable
  intro p M n src aux dst
  have hhex : 4 * (2 * n) = 8 * n := by omega
  have hblocks : 4 * (32 * nblocks n) = 128 * nblocks n := by omega
  refine ⟨rfl, ?keyset, rfl, ?xorm, ?bxform, ok_src_dst .., ?hexenc, ok_src_dst .., ok_src_dst .., ok_src_dst ..,
    ?encrypt, ok_src_dst ..⟩
  case keyset => exact (ok_no_dst ..).trans List.forall_mem_singleton
  case xorm =>
    refine (ok_dst ..).trans ?_
    simp only [List.forall_mem_cons, List.not_mem_nil, false_implies, implies_true, and_true, byteRegion,
      blockRegion_valid, blockRegions_apart, and_assoc]
    rfl
  case bxform =>
    refine (ok_src_dst ..).trans ?_
    simp only [byteRegion, blockRegion_valid, blockRegions_apart]
    rfl
  case hexenc =>
    rw [← hhex]
    exact ok_src_dst ..
  case encrypt =>
    rw [← hblocks]
    exact ok_src_dst ..

end Sys2Proof.Machine
end

section
/-! Key setup: KEYSET's completion and its two errors, the Base Key Matrix of a padded key, and the block keys
(40_key_setup.md). -/

namespace Sys2Proof.Machine

/-! ### The cells of the key matrices -/

/-- Padding tiles the key's bytes (40_key_setup.md R102). -/
theorem pad16_map_range {n : Nat} (hn : 0 < n) (f : Nat → Byte) (k : Nat) (h : k < 16) :
    (pad16 ((List.range n).map f))[k] = f (k % n) := by
  rw [pad16_getElem, List.length_map, List.length_range]
  simp [List.getD_eq_getElem?_getD, Nat.mod_lt k hn]

/-- A cell of the Base Key Matrix as a number (40_key_setup.md R103). -/
theorem cell_baseKey_toNat (pad : ByteMatrix) (i j : Fin 4) :
    (cell (baseKey pad) i j).toNat = (cell pad i j).toNat * (cell pad j i).toNat % 256 := by
  rw [cell_baseKey, BitVec.toNat_mul]

theorem cell_baseKey_comm (pad : ByteMatrix) (i j : Fin 4) : cell (baseKey pad) i j = cell (baseKey pad) j i := by
  rw [cell_baseKey, cell_baseKey, BitVec.mul_comm]

/-- Entry 5i of a matrix is its diagonal cell (i, i). -/
theorem getElem_five_mul (m : ByteMatrix) (i : Fin 4) : m[5 * i.val] = cell m i i := by
  simp only [cell, show 5 * i.val = 4 * i.val + i.val by omega]

/-- The two forms of a block key's cell: the index is reduced before the XOR or after it (40_key_setup.md R108, R109). -/
theorem xor_lo8_toNat (b : Byte) (v : Nat) :
    (b ^^^ lo8 v).toNat = (b.toNat ^^^ (v % 256)) % 256 ∧ (b ^^^ lo8 v).toNat = (b.toNat ^^^ v) % 256 := by
  have hmod : (b.toNat ^^^ v) % 2 ^ 8 = b.toNat ^^^ (v % 2 ^ 8) := by
    rw [Nat.xor_mod_two_pow, Nat.mod_eq_of_lt b.isLt]
  have hmod' : (b.toNat ^^^ (v % 2 ^ 8)) % 2 ^ 8 = b.toNat ^^^ (v % 2 ^ 8) := by
    rw [← hmod, Nat.mod_mod]
  rw [BitVec.toNat_xor, lo8_toNat]
  exact ⟨hmod'.symm, hmod.symm⟩

/-! ### KEYSET -/

/-- KEYSET's one region is the key text (30_encoding.md R74). -/
theorem keyset_regions_ok (p : Latch) (M : Nat) :
    (operandRegions .keyset p).ok M = true ↔ regionValid M p.srcAddr.toNat (4 * p.srcLen.toNat) 4 :=
  (ok_no_dst ..).trans List.forall_mem_singleton

/-- An empty key passes the region check at every address and fails the next one (40_key_setup.md R100, R101). -/
theorem keysetRule_empty {p : Latch} (hn : p.srcLen.toNat = 0) (s : State) :
    keysetRule p s = .error (.raise .invalidKey none) := by
  have hr : (operandRegions .keyset p).ok s.config.memSize = true := (keyset_regions_ok p _).mpr (.inl (by omega))
  have hz : (p.srcLen != 0) = false := by simpa [← BitVec.toNat_inj] using hn
  simp only [keysetRule, checkRegions_bind, check_bind, hr, hz, if_true, Bool.false_eq_true, if_false]

theorem raiseError_some_eq_failed (s : State) (p : Latch) (e : ErrCode) (k : Nat) :
    s.raiseError p e (some k) = failed p e (BitVec.ofNat 32 k) s := rfl

/-- Settles O21: the text read is the characters `c`, whose bytes KEYSET pads. -/
theorem keysetLoadsTheKey : Obligations.KeysetLoadsTheKey := by
  unfold Obligations.KeysetLoadsTheKey
  rintro s p n c hp rfl hn hvalid htext hbyte
  have hb := textToBytes_ok (t := (List.range p.srcLen.toNat).map c) (by simpa using hbyte)
  have hrule := keysetRule_ok ((keyset_regions_ok p _).mpr hvalid) hn.ne' (readText_of_holds htext) hb
  refine ⟨_, runCommand_ok hp hrule, rfl, fun k h => ?pad, fun i j => cell_baseKey_toNat _ i j⟩
  rw [succeed_keypad, List.map_map, pad16_map_range hn, Function.comp_apply, lo8_toNat]
  exact Nat.mod_eq_of_lt (Nat.lt_succ_of_le (hbyte _ (Nat.mod_lt k hn)))

/-- Settles O22: the length is checked before the text is read, and the text is converted whole before it is padded. -/
theorem keysetErrors : Obligations.KeysetErrors := by
  unfold Obligations.KeysetErrors
  refine fun s p hp => ⟨fun hn => ?empty, fun c k hvalid htext hk hbefore hwide => ?wide⟩
  case empty =>
    rw [← raiseError_none_eq_failed]
    exact runCommand_raise hp (keysetRule_empty hn s)
  case wide =>
    have hb : textToBytes ((List.range p.srcLen.toNat).map c) = .error (.raise .encodingError (some k)) :=
      textToBytes_error (by simpa using hk) (by simpa using hwide) (by simpa using hbefore)
    have hrule : keysetRule p s = .error (.raise .encodingError (some k)) := by
      rw [keysetRule_read ((keyset_regions_ok p _).mpr hvalid) (by omega) (readText_of_holds htext), hb, error_bind]
    rw [← raiseError_some_eq_failed]
    exact runCommand_raise hp hrule

/-- Settles O23: by the invariant KEYMAT is the Base Key Matrix of KEYPAD. -/
theorem baseKeyMatrixIsSymmetric : Obligations.BaseKeyMatrixIsSymmetric := by
  unfold Obligations.BaseKeyMatrixIsSymmetric
  rintro s ⟨-, -, -, -, hkey, -⟩ i j
  rw [hkey]
  refine ⟨cell_baseKey_comm s.keypad i j, ?_⟩
  rw [getElem_five_mul, getElem_five_mul, cell_baseKey_toNat, pow_two]

/-! ### Block keys -/

/-- Settles O24: each cell of the block key is a cell of KEYMAT XOR the low byte of the latched index. -/
theorem bkgenDerivesTheBlockKey : Obligations.BkgenDerivesTheBlockKey := by
  unfold Obligations.BkgenDerivesTheBlockKey
  intro s p hp hk
  refine ⟨_, runCommand_ok hp (bkgenRule_ok hk), rfl, fun k h => ?_⟩
  rw [succeed_bkmat, blockKey_getElem]
  exact xor_lo8_toNat _ _

theorem blockKey_zero (m : ByteMatrix) : blockKey m 0 = m := by
  ext k h : 1
  rw [blockKey_getElem]
  exact BitVec.xor_zero

/-- Settles O25: a block key depends on its index modulo 256. -/
theorem blockKeysRepeatWithPeriod256 : Obligations.BlockKeysRepeatWithPeriod256 := by
  unfold Obligations.BlockKeysRepeatWithPeriod256
  refine fun m b => ⟨?_, blockKey_zero m⟩
  rw [← blockKey_mod m (b + 256), Nat.add_mod_right, blockKey_mod]

end Sys2Proof.Machine
end

section
/-! FRAME's completion: the bytes of the framed input, and the store that writes them (41_framing.md). -/

namespace Sys2Proof.Machine

/-! ### A store read back -/

/-- A store of `n` bytes holds them from its address on. -/
theorem holdsBytes_write (m : Memory) (a : Nat) {n : Nat} {bs : List Byte} {f : Nat → Byte}
    (h : ∀ k < n, bs[k]? = some (f k)) : HoldsBytes (m.write a bs) a n f := by
  intro k hk
  obtain ⟨hlt, hget⟩ := List.getElem?_eq_some_iff.mp (h k hk)
  rw [read_write_inside m a bs k hlt, hget]

theorem sameOutside_write (m : Memory) (a : Nat) {n : Nat} {bs : List Byte} (h : bs.length = n) :
    SameOutside a n m (m.write a bs) := by
  subst h
  exact read_write_outside m a bs

/-! ### The framed bytes -/

/-- The framing of `n` bytes reads no position beyond them (41_framing.md R121). -/
theorem framedByte_congr {n : Nat} {f g : Nat → Byte} (h : ∀ k < n, f k = g k) : framedByte n f = framedByte n g := by
  funext k
  unfold framedByte
  split
  next hk => exact h k hk
  next => rfl

/-- The bytes FRAME writes for the `n` bytes `f` (41_framing.md R121, R125). -/
theorem frameBlocks_map_range {n : Nat} (f : Nat → Byte) {q : Nat} (hq : q < 16 * nblocks n) :
    (frameBlocks ((List.range n).map f)).flatten[q]? = some (framedByte n f q) := by
  have hlen : ((List.range n).map f).length = n := by simp
  have hsame : ∀ k < n, ((List.range n).map f).getD k 0 = f k := fun k hk => by
    simp [List.getD_eq_getElem?_getD, hk]
  rw [frameBlocks_flatten_getElem? _ _ (by rwa [hlen]), hlen, framedByte_congr hsame]

theorem frameBlocks_map_range_length (n : Nat) (f : Nat → Byte) :
    (frameBlocks ((List.range n).map f)).flatten.length = 16 * nblocks n := by
  rw [frameBlocks_flatten_length, List.length_map, List.length_range]

/-! ### FRAME -/

/-- Settles O26: the bytes read are `f`, and FRAME stores their framing, `16 * nblocks n` bytes, at its destination. -/
theorem frameCompletes : Obligations.FrameCompletes := by
  unfold Obligations.FrameCompletes
  rintro s p n f hp rfl hsrc hdst hapart hbytes
  have hregions : (operandRegions .frame p).ok s.config.memSize = true := (ok_src_dst ..).mpr ⟨hsrc, hdst, hapart⟩
  have hlen := frameBlocks_map_range_length p.srcLen.toNat f
  exact ⟨_, runCommand_ok hp (frameRule_ok hregions (readBytes_of_holds hbytes)), completed_storeBytes hlen,
    holdsBytes_write _ _ fun _ => frameBlocks_map_range f, sameOutside_write _ _ hlen⟩

end Sys2Proof.Machine
end

section
/-! The combiner, and the completions of XORM and BXFORM: the bytes of a block combined with a matrix or with its block key
(42_transform.md). -/

namespace Sys2Proof.Machine

/-! ### The combiner -/

theorem xorM_xorM_cancel (a b : ByteMatrix) : xorM (xorM a b) b = a := by
  ext k h : 1
  rw [xorM_getElem, xorM_getElem, xor_cancel_right]

theorem xorM_comm (a b : ByteMatrix) : xorM a b = xorM b a := by
  ext k h : 1
  rw [xorM_getElem, xorM_getElem, BitVec.xor_comm]

theorem xorM_self (a : ByteMatrix) : xorM a a = ByteMatrix.zero := by
  ext k h : 1
  rw [xorM_getElem, BitVec.xor_self, ByteMatrix.zero, Vector.getElem_replicate]
  rfl

/-- Settles O28: the three laws hold cell by cell. -/
theorem combinerIsSelfInverse : Obligations.CombinerIsSelfInverse := by
  unfold Obligations.CombinerIsSelfInverse
  exact fun a b => ⟨xorM_xorM_cancel a b, xorM_comm a b, xorM_self a⟩

/-! ### The bytes of a combined block -/

theorem getD_map_range {α : Type} {n k : Nat} (f : Nat → α) (d : α) (hk : k < n) :
    ((List.range n).map f).getD k d = f k := by
  simp [List.getD_eq_getElem?_getD, hk]

theorem toBytes_xorM_map_range (a b : Nat → Byte) {k : Nat} (hk : k < 16) :
    (toBytes (xorM (toMatrix ((List.range 16).map a)) (toMatrix ((List.range 16).map b))))[k]? = some (a k ^^^ b k) := by
  rw [List.getElem?_eq_getElem (by simpa using hk), toBytes_getElem, xorM_getElem, toMatrix_getElem, toMatrix_getElem,
    getD_map_range a 0 hk, getD_map_range b 0 hk]

/-- The byte combined with byte `k` of block `b` of a message (40_key_setup.md R108, R111). -/
theorem keyByte_block (m : ByteMatrix) (b : Nat) {k : Nat} (hk : k < 16) :
    keyByte m (16 * b + k) = m[k] ^^^ BitVec.ofNat 8 b := by
  have hmod : (16 * b + k) % 16 = k := by omega
  have hdiv : (16 * b + k) / 16 = b := by omega
  simp only [keyByte, hmod, hdiv]

theorem transformBlock_map_range (m : ByteMatrix) (x : Nat → Byte) (b : Nat) {k : Nat} (hk : k < 16) :
    (transformBlock m ((List.range 16).map x) b)[k]? = some (x k ^^^ keyByte m (16 * b + k)) := by
  rw [transformBlock_getElem? _ _ _ _ hk, getD_map_range x 0 hk, keyByte_block m b hk]
  rfl

/-! ### XORM -/

/-- Settles O27: the matrices read are `a` and `b`, and XORM stores the bytes of their combination. -/
theorem xormCompletes : Obligations.XormCompletes := by
  unfold Obligations.XormCompletes
  intro s p a b hp hsrc haux hdst hapartSrc hapartAux ha hb
  have hregions : (operandRegions .xorm p).ok s.config.memSize = true := by
    refine (ok_dst ..).mpr ⟨?valid, (blockRegion_valid ..).mpr hdst, ?apart⟩
    case valid =>
      exact List.forall_mem_cons.mpr
        ⟨(blockRegion_valid ..).mpr hsrc, List.forall_mem_singleton.mpr ((blockRegion_valid ..).mpr haux)⟩
    case apart => exact List.forall_mem_cons.mpr ⟨hapartSrc, List.forall_mem_singleton.mpr hapartAux⟩
  exact ⟨_, runCommand_ok hp (xormRule_ok hregions (readBytes_of_holds ha) (readBytes_of_holds hb)),
    completed_storeBytes (toBytes_length _), holdsBytes_write _ _ fun _ => toBytes_xorM_map_range a b,
    sameOutside_write _ _ (toBytes_length _)⟩

/-! ### BXFORM -/

theorem add_one_eq_ofNat (w : Word) : w + 1 = BitVec.ofNat 32 (w.toNat + 1) := by
  apply BitVec.eq_of_toNat_eq
  simp

theorem bxform_regions_ok {p : Latch} {M : Nat} (hsrc : p.srcAddr.toNat + 16 ≤ M) (hdst : p.dstAddr.toNat + 16 ≤ M)
    (hapart : ¬ regionsOverlap p.dstAddr.toNat 16 p.srcAddr.toNat 16) : (operandRegions .bxform p).ok M = true :=
  (ok_src_dst ..).mpr ⟨(blockRegion_valid ..).mpr hsrc, (blockRegion_valid ..).mpr hdst, hapart⟩

/-- The state BXFORM leaves when its checks pass and the block read is `x` (42_transform.md R136). -/
theorem exec_bxform {s : State} {p : Latch} {x : Nat → Byte} (hp : s.pend = some p) (hk : s.keyValid = true)
    (hregions : (operandRegions .bxform p).ok s.config.memSize = true) (hx : HoldsBytes s.mem p.srcAddr.toNat 16 x) :
    exec .bxform s = .next
      { s with mem := s.mem.write p.dstAddr.toNat (transformBlock s.keymat ((List.range 16).map x) p.blkIdx.toNat),
               bkmat := blockKey s.keymat p.blkIdx.toNat, blkIdx := BitVec.ofNat 32 (p.blkIdx.toNat + 1), outLen := 16,
               err := .noError, errPos := 0xFFFFFFFF, lastOp := p.cmd.extractLsb' 0 8, pend := none, done := true } := by
  refine (runCommand_ok hp (bxformRule_ok hk hregions (readBytes_of_holds hx))).trans ?_
  rw [State.storeBytes, transformBlock_length, add_one_eq_ofNat]
  rfl

/-- Settles O29: each byte stored is the source's combined with its cell of the block key. -/
theorem bxformCompletes : Obligations.BxformCompletes := by
  unfold Obligations.BxformCompletes
  intro s p x hp hk hsrc hdst hapart hx
  refine ⟨_, exec_bxform hp hk (bxform_regions_ok hsrc hdst hapart) hx, rfl, fun k h => blockKey_getElem _ _ _ h,
    fun k h => ?byte, sameOutside_write _ _ (transformBlock_length ..)⟩
  case byte =>
    rw [BitVec.xor_assoc, ← keyByte_block _ _ h]
    exact holdsBytes_write _ _ (fun _ => transformBlock_map_range s.keymat x p.blkIdx.toNat) k h

/-- What BXFORM stores, with the key byte named by its place in the message whose block `p.blkIdx` is transformed
(42_transform.md R136, R137). -/
theorem bxform_stores_block {s : State} {p : Latch} {x : Nat → Byte} (hp : s.pend = some p) (hk : s.keyValid = true)
    (hregions : (operandRegions .bxform p).ok s.config.memSize = true) (hx : HoldsBytes s.mem p.srcAddr.toNat 16 x) :
    ∃ t, exec .bxform s = .next t ∧ t.err = .noError ∧ t.config = s.config ∧ t.keyValid = s.keyValid ∧
      t.keymat = s.keymat ∧
      HoldsBytes t.mem p.dstAddr.toNat 16 fun k => x k ^^^ keyByte s.keymat (16 * p.blkIdx.toNat + k) :=
  ⟨_, exec_bxform hp hk hregions hx, rfl, rfl, rfl, rfl,
    holdsBytes_write _ _ fun _ => transformBlock_map_range s.keymat x p.blkIdx.toNat⟩

/-- Settles O30: the second BXFORM combines each byte with the same key byte again. -/
theorem bxformTwiceGivesTheBlockBack : Obligations.BxformTwiceGivesTheBlockBack := by
  unfold Obligations.BxformTwiceGivesTheBlockBack
  intro s p q x hp hk hsrc hdst hapart hx hqsrc hqidx hqdst hqapart
  obtain ⟨t, ht, -, hconfig, hkeyValid, hkeymat, hbytes⟩ :=
    bxform_stores_block hp hk (bxform_regions_ok hsrc hdst hapart) hx
  have hregions : (operandRegions .bxform q).ok t.config.memSize = true :=
    bxform_regions_ok (by rwa [hqsrc, hconfig]) (by rwa [hconfig]) hqapart
  obtain ⟨u, hu, herr, -, -, -, hback⟩ :=
    bxform_stores_block (s := { t with pend := some q }) rfl (hkeyValid.trans hk) hregions (by rwa [hqsrc])
  exact ⟨t, u, ht, hu, herr, by simpa only [hkeymat, hqidx, xor_cancel_right] using hback⟩

end Sys2Proof.Machine
end

section
/-! ENCRYPT's completion, character by character, and what follows for two plaintexts and for BXFORM (42_transform.md). -/

namespace Sys2Proof.Machine

/-! ### A stored text read back -/

theorem holdsText_write (m : Memory) (a : Nat) {n : Nat} {t : List Word} {f : Nat → Word}
    (h : ∀ k < n, t[k]? = some (f k)) : HoldsText (m.write a (textBytes t)) a n f := by
  intro k hk
  obtain ⟨hlt, hget⟩ := List.getElem?_eq_some_iff.mp (h k hk)
  rw [readWord_write_text m a t k hlt, hget]

theorem hexDigit_eq_ofNat (d : Nat) : hexDigit d = BitVec.ofNat 32 (hexCode d) := by
  unfold hexDigit hexCode
  split
  · rfl
  · congr 1
    omega

/-! ### The ciphertext -/

/-- Byte `q` of the framed plaintext `c` of `n` characters, combined with its block key (42_transform.md R140, R141). -/
def cipherByte (m : ByteMatrix) (n : Nat) (c : Nat → Word) (q : Nat) : Byte :=
  framedByte n (fun k => BitVec.ofNat 8 (c k).toNat) q ^^^ keyByte m q

/-- The value of hex digit `j` of the bytes `y`, the high one first (43_codecs.md R170). -/
def nibble (y : Nat → Byte) (j : Nat) : Nat := if j % 2 = 0 then (y (j / 2)).toNat / 16 else (y (j / 2)).toNat % 16

theorem nibble_even (y : Nat → Byte) (q : Nat) : nibble y (2 * q) = (y q).toNat / 16 := by
  rw [nibble, if_pos (by omega), Nat.mul_div_cancel_left q (by decide)]

theorem nibble_odd (y : Nat → Byte) (q : Nat) : nibble y (2 * q + 1) = (y q).toNat % 16 := by
  rw [nibble, if_neg (by omega), show (2 * q + 1) / 2 = q by omega]

theorem nibble_lt (y : Nat → Byte) (j : Nat) : nibble y j < 16 := by
  have := (y (j / 2)).isLt
  unfold nibble
  split <;> omega

theorem hexEncode_getElem?_nibble {s : List Byte} {y : Nat → Byte} {n : Nat} (h : ∀ q < n, s[q]? = some (y q)) {j : Nat}
    (hj : j < 2 * n) : (hexEncode s)[j]? = some (hexDigit (nibble y j)) := by
  obtain ⟨hlt, hget⟩ := List.getElem?_eq_some_iff.mp (h (j / 2) (by omega))
  obtain ⟨hhigh, hlow⟩ := hexEncode_getElem? s (j / 2) hlt
  rw [hget] at hhigh hlow
  unfold nibble
  split
  next heven => rwa [show 2 * (j / 2) = j by omega] at hhigh
  next hodd => rwa [show 2 * (j / 2) + 1 = j by omega] at hlow

theorem encryptBytes_map_range (m : ByteMatrix) {n : Nat} (c : Nat → Word) {q : Nat} (hq : q < 16 * nblocks n) :
    (transformBlocks m (frameBlocks ((List.range n).map fun k => lo8 (c k).toNat)))[q]? = some (cipherByte m n c q) := by
  have hlen : ((List.range n).map fun k => lo8 (c k).toNat).length = n := by simp
  rw [encryptBytes_getElem? _ _ _ (by rwa [hlen]), hlen, framedByte_congr fun k hk => getD_map_range _ 0 hk]
  rfl

/-! ### ENCRYPT -/

/-- ENCRYPT stores the hex digits of the cipher bytes (42_transform.md R140). -/
theorem encrypt_stores_hex {s : State} {p : Latch} {n : Nat} {c : Nat → Word} (hp : s.pend = some p)
    (hk : s.keyValid = true) (hn : n = p.srcLen.toNat) (hregions : (operandRegions .encrypt p).ok s.config.memSize = true)
    (htext : HoldsText s.mem p.srcAddr.toNat n c) (hbyte : ∀ k, k < n → (c k).toNat ≤ 255) :
    ∃ t, exec .encrypt s = .next t ∧ Completed p (32 * nblocks n) s t ∧
      HoldsText t.mem p.dstAddr.toNat (32 * nblocks n) (fun j => hexDigit (nibble (cipherByte s.keymat n c) j)) ∧
      SameOutside p.dstAddr.toNat (128 * nblocks n) s.mem t.mem := by
  subst hn
  have hb := textToBytes_ok (t := (List.range p.srcLen.toNat).map c) (by simpa using hbyte)
  have hrule := encryptRule_read hk hregions (readText_of_holds htext)
  rw [hb, ok_bind, List.map_map] at hrule
  refine ⟨_, runCommand_ok hp hrule, completed_storeText ?length, holdsText_write _ _ fun j hj => ?digit,
    sameOutside_write _ _ ?size⟩
  case digit => exact hexEncode_getElem?_nibble (fun q hq => encryptBytes_map_range _ c hq) (by omega)
  case length | size => simp; omega

/-- The two digits of byte `q` in a text of hex digits (43_codecs.md R169, R170). -/
theorem hexPair_of_holds {m : Memory} {a n : Nat} {y : Nat → Byte} (h : HoldsText m a n fun j => hexDigit (nibble y j))
    {q : Nat} (hq : 2 * q + 1 < n) :
    m.readWord (a + 8 * q) = some (BitVec.ofNat 32 (hexCode ((y q).toNat / 16))) ∧
    m.readWord (a + 8 * q + 4) = some (BitVec.ofNat 32 (hexCode ((y q).toNat % 16))) := by
  rw [← hexDigit_eq_ofNat, ← hexDigit_eq_ofNat, ← nibble_even y q, ← nibble_odd y q,
    show a + 8 * q + 4 = a + 4 * (2 * q + 1) by omega, show a + 8 * q = a + 4 * (2 * q) by omega]
  exact ⟨h (2 * q) (by omega), h (2 * q + 1) hq⟩

/-- Settles O31: characters 2q and 2q + 1 are the two digits of cipher byte q. -/
theorem encryptCompletes : Obligations.EncryptCompletes := by
  unfold Obligations.EncryptCompletes
  intro s p n c hp hk hn hsrc hdst hapart htext hbyte
  have hsize : 4 * (32 * nblocks n) = 128 * nblocks n := by omega
  have hregions : (operandRegions .encrypt p).ok s.config.memSize = true := by
    subst hn
    rw [← hsize] at hdst hapart
    exact (ok_src_dst ..).mpr ⟨hsrc, hdst, hapart⟩
  obtain ⟨t, ht, hdone, hhex, hsame⟩ := encrypt_stores_hex hp hk hn hregions htext hbyte
  exact ⟨t, ht, hdone, fun q hq => hexPair_of_holds hhex (by omega), hsame⟩

/-! ### Block by block -/

/-- A cipher byte depends on no character but that of its own position (42_transform.md R150 item 3). -/
theorem cipherByte_congr (m : ByteMatrix) {n q : Nat} {c d : Nat → Word} (h : q < n → c q = d q) :
    cipherByte m n c q = cipherByte m n d q := by
  by_cases hq : q < n
  · simp only [cipherByte, framedByte, if_pos hq, h hq]
  · simp only [cipherByte, framedByte, if_neg hq]

/-- Settles O35: digit `j` comes from the character at `j / 2`, which stands in block `j / 32`. -/
theorem encryptBlocksAreIndependent : Obligations.EncryptBlocksAreIndependent := by
  unfold Obligations.EncryptBlocksAreIndependent
  intro s₁ s₂ p n q₀ c₁ c₂ hp₁ hp₂ hk₁ hk₂ hkeymat hconfig hn hregions htext₁ htext₂ hbyte hsame
  obtain ⟨t₁, ht₁, -, hhex₁, -⟩ := encrypt_stores_hex hp₁ hk₁ hn hregions htext₁ fun k hk => (hbyte k hk).1
  obtain ⟨t₂, ht₂, -, hhex₂, -⟩ := encrypt_stores_hex hp₂ hk₂ hn (hconfig ▸ hregions) htext₂ fun k hk => (hbyte k hk).2
  refine ⟨t₁, t₂, ht₁, ht₂, fun j hj hblock => ⟨_, hhex₁ j hj, ?_⟩⟩
  have hchar : cipherByte s₁.keymat n c₁ (j / 2) = cipherByte s₂.keymat n c₂ (j / 2) := by
    rw [hkeymat]
    exact cipherByte_congr _ fun hlt => hsame _ hlt (by omega)
  simp only [hhex₂ j hj, nibble, hchar]

theorem nblocks_lt_of_lt {n : Nat} (h : n < 2 ^ 32) : nblocks n < 2 ^ 32 := by
  unfold nblocks
  split <;> omega

/-- Settles O36: both commands combine byte `k` of block `b` with the same key byte. -/
theorem bxformOfAFramedBlockIsEncryptsBlock : Obligations.BxformOfAFramedBlockIsEncryptsBlock := by
  unfold Obligations.BxformOfAFramedBlockIsEncryptsBlock
  intro s r p q n b c hp hk hn hregions htext hbyte hq hkr hkeymat hregionsq hb hidx hblock
  obtain ⟨t, ht, -, hhex, -⟩ := encrypt_stores_hex hp hk hn hregions htext hbyte
  obtain ⟨u, hu, -, -, -, -, hbytes⟩ := bxform_stores_block hq hkr hregionsq hblock
  have hidxb : q.blkIdx.toNat = b := by
    have := nblocks_lt_of_lt (hn ▸ p.srcLen.isLt)
    rw [hidx, BitVec.toNat_ofNat, Nat.mod_eq_of_lt (by omega)]
  rw [hidxb, hkeymat] at hbytes
  exact ⟨t, u, ht, hu, fun k hk16 => ⟨_, hbytes k hk16, hexPair_of_holds hhex (by omega)⟩⟩

end Sys2Proof.Machine
end

section
/-! DECRYPT's completion and its content errors, and the round trip with ENCRYPT (42_transform.md). -/

namespace Sys2Proof.Machine

/-! ### Hex characters -/

theorem hexVal_of_hexChar {c : Word} {v : Nat} (h : HexChar c v) : hexVal c = some v := by
  unfold hexVal
  obtain ⟨hlo, hhi, rfl⟩ | ⟨hlo, hhi, rfl⟩ | ⟨hlo, hhi, rfl⟩ := h
  · exact if_pos ⟨hlo, hhi⟩
  · exact (if_neg (by omega)).trans (if_pos ⟨hlo, hhi⟩)
  · exact (if_neg (by omega)).trans ((if_neg (by omega)).trans (if_pos ⟨hlo, hhi⟩))

theorem hexVal_of_notHexChar {c : Word} (h : NotHexChar c) : hexVal c = none := by
  obtain ⟨hdec, hlower, hupper⟩ := h
  exact (if_neg hdec).trans ((if_neg hlower).trans (if_neg hupper))

theorem hexChar_hexDigit {d : Nat} (h : d < 16) : HexChar (hexDigit d) d := by
  unfold HexChar
  rw [hexDigit_toNat d h]
  split <;> omega

/-- The bytes of a text of hex characters (43_codecs.md R173). -/
theorem hexDecode_map_range {n : Nat} {c : Nat → Word} {v : Nat → Nat} (hhex : ∀ k, k < n → HexChar (c k) (v k))
    (heven : n % 2 = 0) :
    hexDecode ((List.range n).map c) =
      .ok ((List.range (n / 2)).map fun q => BitVec.ofNat 8 (v (2 * q) * 16 + v (2 * q + 1))) := by
  have hval : ∀ k, k < n → hexVal (c k) = some (v k) := fun k hk => hexVal_of_hexChar (hhex k hk)
  rw [hexDecode_ok (by simpa using heven) (by simp +contextual [hval])]
  congr 1
  apply List.ext_getElem?
  intro q
  by_cases hq : q < n / 2
  · rw [hexPairs_getElem? _ _ (by simp; omega)]
    simp [hval (2 * q) (by omega), hval (2 * q + 1) (by omega), hq, lo8]
  · rw [List.getElem?_eq_none (by simp [hexPairs_length]; omega), List.getElem?_eq_none (by simp; omega)]

theorem hexDecode_map_range_bad {n k : Nat} {c : Nat → Word} {v : Nat → Nat} (heven : n % 2 = 0) (hk : k < n)
    (hgood : ∀ j, j < k → HexChar (c j) (v j)) (hbad : NotHexChar (c k)) :
    hexDecode ((List.range n).map c) = .error (.raise .malformedInput (some k)) :=
  hexDecode_bad (by simpa using heven) (by simpa using hk) (by simpa using hexVal_of_notHexChar hbad)
    (by simpa using fun j hj => Option.isSome_of_eq_some (hexVal_of_hexChar (hgood j hj)))

/-! ### Bytes up to the delimiter -/

/-- The text of the bytes `d` whose first delimiter stands at `e`, or that have none and length `e` (43_codecs.md R165). -/
theorem bytesToText_map_range {n e : Nat} {d : Nat → Byte} (hbefore : ∀ q, q < e → d q ≠ 0xFF)
    (hend : e = n ∨ (e < n ∧ d e = 0xFF)) :
    bytesToText ((List.range n).map d) = (List.range e).map fun q => BitVec.ofNat 32 (d q).toNat := by
  have hle : e ≤ n := by omega
  rw [bytesToText_of_first (e := e) (by simpa using hle) (by simpa using hbefore) (by simpa using hend), ← List.map_take,
    List.take_range, min_eq_left hle, List.map_map]
  exact List.map_congr_left fun q _ => (BitVec.ofNat_toNat 32 (d q)).symm

/-! ### DECRYPT -/

/-- Byte `q` of the hex digits `v`, combined with its block key (42_transform.md R145, R147). -/
def plainByte (m : ByteMatrix) (v : Nat → Nat) (q : Nat) : Byte :=
  BitVec.ofNat 8 (v (2 * q) * 16 + v (2 * q + 1)) ^^^ keyByte m q

theorem decryptBytes_map_range (m : ByteMatrix) {n : Nat} (hn : n % 16 = 0) (f : Nat → Byte) :
    transformBlocks m (wholeBlocks ((List.range n).map f)) = (List.range n).map fun q => f q ^^^ keyByte m q := by
  have hlen : ((List.range n).map f).length = n := by simp
  apply List.ext_getElem?
  intro q
  by_cases hq : q < n
  · rw [decryptBytes_getElem? _ _ _ (by rw [hlen]; omega), getD_map_range f 0 hq]
    simp [hq]
  · rw [List.getElem?_eq_none (by simp; omega), List.getElem?_eq_none (by simp; omega)]

/-- DECRYPT stores the decrypted characters before position `e` (42_transform.md R145, R148). -/
theorem decrypt_stores_text {s : State} {p : Latch} {n e : Nat} {c : Nat → Word} {v : Nat → Nat} (hp : s.pend = some p)
    (hk : s.keyValid = true) (hn : n = p.srcLen.toNat) (hregions : (operandRegions .decrypt p).ok s.config.memSize = true)
    (htext : HoldsText s.mem p.srcAddr.toNat n c) (hhex : ∀ k, k < n → HexChar (c k) (v k)) (hpos : 0 < n)
    (hblocks : n % 32 = 0) (hbefore : ∀ q, q < e → plainByte s.keymat v q ≠ 0xFF)
    (hend : e = n / 2 ∨ (e < n / 2 ∧ plainByte s.keymat v e = 0xFF)) :
    ∃ t, exec .decrypt s = .next t ∧ Completed p e s t ∧
      HoldsText t.mem p.dstAddr.toNat e (fun q => BitVec.ofNat 32 (plainByte s.keymat v q).toNat) ∧
      SameOutside p.dstAddr.toNat (4 * e) s.mem t.mem := by
  subst hn
  have hcount : (p.srcLen.toNat / 2 != 0 && p.srcLen.toNat / 2 % 16 == 0) = true := by
    simp only [Bool.and_eq_true, bne_iff_ne, beq_iff_eq]
    omega
  have hbytes : transformBlocks s.keymat (wholeBlocks ((List.range (p.srcLen.toNat / 2)).map fun q =>
      BitVec.ofNat 8 (v (2 * q) * 16 + v (2 * q + 1)))) = (List.range (p.srcLen.toNat / 2)).map (plainByte s.keymat v) :=
    decryptBytes_map_range _ (by omega) _
  have hrule := decryptRule_read hk hregions (readText_of_holds htext)
  rw [hexDecode_map_range hhex (by omega), ok_bind, if_pos hcount, hbytes, bytesToText_map_range hbefore hend] at hrule
  exact ⟨_, runCommand_ok hp hrule, completed_storeText (by simp), holdsText_write _ _ fun q hq => by simp [hq],
    sameOutside_write _ _ (by simp)⟩

/-- Settles O32: with the text's hex digits decoded and combined, what is left is the cut at the first delimiter. -/
theorem decryptCompletes : Obligations.DecryptCompletes := by
  unfold Obligations.DecryptCompletes
  intro s p n e c v hp hk hn hsrc hdst hapart htext hhex hpos hblocks d hbefore hend
  have hregions : (operandRegions .decrypt p).ok s.config.memSize = true := by
    subst hn
    exact (ok_src_dst ..).mpr ⟨hsrc, hdst, hapart⟩
  exact decrypt_stores_text hp hk hn hregions htext hhex hpos hblocks hbefore hend

/-- Settles O33: the hex decoder reports the first two errors, and the byte count is checked after it. -/
theorem decryptErrors : Obligations.DecryptErrors := by
  unfold Obligations.DecryptErrors
  rintro s p n c hp hk rfl hregions htext
  have hrule := decryptRule_read hk hregions (readText_of_holds htext)
  refine ⟨fun hodd => ?odd, fun k v heven hlt hgood hbad => ?nonHex, fun v heven hgood hcount => ?count⟩
  case odd =>
    rw [hexDecode_odd (by simpa using hodd), error_bind] at hrule
    exact runCommand_raise hp hrule
  case nonHex =>
    rw [hexDecode_map_range_bad heven hlt hgood hbad, error_bind] at hrule
    exact runCommand_raise hp hrule
  case count =>
    have hcount : ¬ (p.srcLen.toNat / 2 != 0 && p.srcLen.toNat / 2 % 16 == 0) = true := by
      simp only [Bool.and_eq_true, bne_iff_ne, beq_iff_eq]
      omega
    rw [hexDecode_map_range hgood heven, ok_bind, if_neg hcount] at hrule
    exact runCommand_raise hp hrule

/-! ### The round trip -/

theorem plainByte_nibble (m : ByteMatrix) (y : Nat → Byte) (q : Nat) : plainByte m (nibble y) q = y q ^^^ keyByte m q := by
  rw [plainByte, nibble_even, nibble_odd, Nat.div_add_mod', BitVec.ofNat_toNat, BitVec.setWidth_eq]

/-- DECRYPT's byte of what ENCRYPT wrote is the framed plaintext's (42_transform.md R150 item 1). -/
theorem plainByte_nibble_cipherByte (m : ByteMatrix) (n : Nat) (c : Nat → Word) (q : Nat) :
    plainByte m (nibble (cipherByte m n c)) q = framedByte n (fun k => BitVec.ofNat 8 (c k).toNat) q := by
  rw [plainByte_nibble, cipherByte, xor_cancel_right]

theorem framedByte_first_delimiter {n : Nat} {f : Nat → Byte} (hf : ∀ k, k < n → f k ≠ 0xFF) :
    (∀ k, k < n → framedByte n f k ≠ 0xFF) ∧ (n = 16 * nblocks n ∨ (n < 16 * nblocks n ∧ framedByte n f n = 0xFF)) := by
  refine ⟨fun k hk => ?_, ?_⟩
  · rw [framedByte, if_pos hk]
    exact hf k hk
  · simp only [framedByte, lt_irrefl, if_false, if_true, and_true]
    unfold nblocks
    split <;> omega

theorem nblocks_pos (n : Nat) : 0 < nblocks n := by
  unfold nblocks
  split <;> omega

theorem ofNat_toNat_byte {w : Word} (h : w.toNat ≤ 255) : BitVec.ofNat 32 (BitVec.ofNat 8 w.toNat).toNat = w := by
  rw [BitVec.toNat_ofNat, Nat.mod_eq_of_lt (by omega), BitVec.ofNat_toNat, BitVec.setWidth_eq]

theorem byte_ne_delimiter {w : Word} (h : w.toNat ≤ 254) : BitVec.ofNat 8 w.toNat ≠ 0xFF := by
  intro heq
  have := congrArg BitVec.toNat heq
  rw [BitVec.toNat_ofNat, Nat.mod_eq_of_lt (by omega)] at this
  exact absurd this (ne_of_lt (Nat.lt_succ_of_le h))

/-- What a completion keeps of the key and the configuration. -/
theorem Completed.keeps {p : Latch} {n : Nat} {s t : State} (h : Completed p n s t) :
    t.config = s.config ∧ t.keyValid = s.keyValid ∧ t.keymat = s.keymat := by
  rw [Completed] at h
  rw [h]
  exact ⟨rfl, rfl, rfl⟩

/-- What a completion reports. -/
theorem Completed.reports {p : Latch} {n : Nat} {s t : State} (h : Completed p n s t) :
    t.err = .noError ∧ t.outLen = BitVec.ofNat 32 n := by
  rw [Completed] at h
  rw [h]
  exact ⟨rfl, rfl⟩

/-- Settles O34: the decrypted bytes are the framing of the plaintext, whose first delimiter stands at its end. -/
theorem decryptOfEncryptIsThePlaintext : Obligations.DecryptOfEncryptIsThePlaintext := by
  unfold Obligations.DecryptOfEncryptIsThePlaintext
  intro s p q n c hp hk hn hregions htext hbyte hqsrc hqlen hqregions
  have hbyte' : ∀ k, k < n → (c k).toNat ≤ 255 := fun k hlt => (hbyte k hlt).trans (by decide)
  obtain ⟨t, ht, htdone, hhex, -⟩ := encrypt_stores_hex hp hk hn hregions htext hbyte'
  obtain ⟨hconfig, hkeyValid, hkeymat⟩ := htdone.keeps
  obtain ⟨hbefore, hend⟩ := framedByte_first_delimiter fun k hlt => byte_ne_delimiter (hbyte k hlt)
  have hplain : plainByte t.keymat (nibble (cipherByte s.keymat n c)) = framedByte n fun k => BitVec.ofNat 8 (c k).toNat :=
    funext fun k => hkeymat ▸ plainByte_nibble_cipherByte s.keymat n c k
  have hpos := nblocks_pos n
  have hhalf : 32 * nblocks n / 2 = 16 * nblocks n := by omega
  obtain ⟨u, hu, hudone, hutext, -⟩ :=
    decrypt_stores_text (s := { t with pend := some q }) rfl (hkeyValid.trans hk) hqlen.symm (by rwa [hconfig])
      (by rwa [hqsrc]) (fun k _ => hexChar_hexDigit (nibble_lt _ k)) (by omega) (by omega) (by rwa [hplain])
      (by rwa [hplain, hhalf])
  obtain ⟨herr, hlen⟩ := hudone.reports
  refine ⟨t, u, ht, hu, herr, ?length, fun k hlt => ?text⟩
  case length => rw [hlen, hn, BitVec.ofNat_toNat, BitVec.setWidth_eq]
  case text => simp only [hutext k hlt, hplain, framedByte, if_pos hlt, ofNat_toNat_byte (hbyte' k hlt)]

end Sys2Proof.Machine
end

section
/-! The codec commands TXTENC, TXTDEC, HEXENC and HEXDEC: what each stores, which character it reports, and the two round trips
of the codec functions (43_codecs.md). -/

namespace Sys2Proof.Machine

/-! ### TXTENC and the characters above 255 -/

/-- The conversion of `n` characters reports the first one above 255 (43_codecs.md R161). -/
theorem textToBytes_map_range_wide {n k : Nat} {c : Nat → Word} (hk : k < n) (hbefore : ∀ j, j < k → (c j).toNat ≤ 255)
    (hwide : 255 < (c k).toNat) : textToBytes ((List.range n).map c) = .error (.raise .encodingError (some k)) :=
  textToBytes_error (by simpa using hk) (by simpa using hwide) (by simpa using hbefore)

/-- Settles O37: each character read is its own low byte, and TXTENC stores the `n` bytes at its destination. -/
theorem txtencCompletes : Obligations.TxtencCompletes := by
  unfold Obligations.TxtencCompletes
  rintro s p n c hp rfl hsrc hdst hapart htext hbyte
  have hregions : (operandRegions .txtenc p).ok s.config.memSize = true := (ok_src_dst ..).mpr ⟨hsrc, hdst, hapart⟩
  have hrule := txtencRule_read hregions (readText_of_holds htext)
  rw [textToBytes_ok (by simpa using hbyte), ok_bind, List.map_map] at hrule
  exact ⟨_, runCommand_ok hp hrule, completed_storeBytes (by simp), holdsBytes_write _ _ fun k hk => by simp [hk, lo8],
    sameOutside_write _ _ (by simp)⟩

/-- Settles O38: both commands convert the text they read before they do anything else with it. -/
theorem wideCharactersAreReported : Obligations.WideCharactersAreReported := by
  unfold Obligations.WideCharactersAreReported
  intro i s p k c hi hp hregions htext hk hbefore hwide
  have hb := textToBytes_map_range_wide hk hbefore hwide
  have ht := readText_of_holds htext
  rw [← raiseError_some_eq_failed]
  obtain rfl | ⟨rfl, hkey⟩ := hi
  case inl => exact runCommand_raise hp ((txtencRule_read hregions ht).trans (by rw [hb, error_bind]))
  case inr => exact runCommand_raise hp ((encryptRule_read hkey hregions ht).trans (by rw [hb, error_bind]))

/-! ### TXTDEC -/

/-- Settles O39: TXTDEC stores the characters of the bytes before position `e`, where the first delimiter stands. -/
theorem txtdecCompletes : Obligations.TxtdecCompletes := by
  unfold Obligations.TxtdecCompletes
  rintro s p n e f hp rfl hsrc hdst hapart hbytes hbefore hend
  have hregions : (operandRegions .txtdec p).ok s.config.memSize = true := (ok_src_dst ..).mpr ⟨hsrc, hdst, hapart⟩
  have hrule := txtdecRule_ok hregions (readBytes_of_holds hbytes)
  rw [bytesToText_map_range hbefore hend] at hrule
  exact ⟨_, runCommand_ok hp hrule, completed_storeText (by simp), holdsText_write _ _ fun k hk => by simp [hk],
    sameOutside_write _ _ (by simp)⟩

/-! ### HEXENC -/

/-- Settles O40: the digits stored are the nibbles of the bytes read, the two of byte `k` at 2k and 2k + 1. -/
theorem hexencCompletes : Obligations.HexencCompletes := by
  unfold Obligations.HexencCompletes
  rintro s p n f hp rfl hsrc hdst hapart hbytes
  have hsize : 4 * (2 * p.srcLen.toNat) = 8 * p.srcLen.toNat := by omega
  have hregions : (operandRegions .hexenc p).ok s.config.memSize = true := by
    rw [← hsize] at hdst hapart
    exact (ok_src_dst ..).mpr ⟨hsrc, hdst, hapart⟩
  have hdigits : ∀ j < 2 * p.srcLen.toNat,
      (hexEncode ((List.range p.srcLen.toNat).map f))[j]? = some (hexDigit (nibble f j)) :=
    fun j hj => hexEncode_getElem?_nibble (fun q hq => by simp [hq]) hj
  exact ⟨_, runCommand_ok hp (hexencRule_ok hregions (readBytes_of_holds hbytes)), completed_storeText (by simp),
    fun k hk => hexPair_of_holds (holdsText_write _ _ hdigits) (by omega), sameOutside_write _ _ (by simp; omega)⟩

/-! ### HEXDEC -/

/-- Settles O41: the bytes stored are those of the digit pairs read. -/
theorem hexdecCompletes : Obligations.HexdecCompletes := by
  unfold Obligations.HexdecCompletes
  rintro s p n c v hp rfl hsrc hdst hapart htext heven hhex
  have hregions : (operandRegions .hexdec p).ok s.config.memSize = true := (ok_src_dst ..).mpr ⟨hsrc, hdst, hapart⟩
  have hrule := hexdecRule_read hregions (readText_of_holds htext)
  rw [hexDecode_map_range hhex heven, ok_bind] at hrule
  exact ⟨_, runCommand_ok hp hrule, completed_storeBytes (by simp), holdsBytes_write _ _ fun q hq => by simp [hq],
    sameOutside_write _ _ (by simp)⟩

/-- Settles O42: HEXDEC reports what the hex decoder does, the odd length first. -/
theorem hexdecErrors : Obligations.HexdecErrors := by
  unfold Obligations.HexdecErrors
  rintro s p n c hp rfl hregions htext
  have hrule := hexdecRule_read hregions (readText_of_holds htext)
  refine ⟨fun hodd => ?odd, fun k v heven hlt hgood hbad => ?nonHex⟩
  case odd =>
    rw [hexDecode_odd (by simpa using hodd), error_bind] at hrule
    exact runCommand_raise hp hrule
  case nonHex =>
    rw [hexDecode_map_range_bad heven hlt hgood hbad, error_bind] at hrule
    exact runCommand_raise hp hrule

/-! ### The hex round trip -/

/-- A hex character with A to F made lower case, as 43_codecs.md R175 compares texts. -/
def hexLower (c : Word) : Word := if 0x41 ≤ c.toNat ∧ c.toNat ≤ 0x46 then c + 0x20 else c

theorem hexChar_of_hexVal {c : Word} {v : Nat} (h : hexVal c = some v) : HexChar c v := by
  unfold hexVal at h
  dsimp only at h
  split at h
  next hdec => exact .inl ⟨hdec.1, hdec.2, (Option.some.inj h).symm⟩
  next =>
    split at h
    next hlower => exact .inr (.inl ⟨hlower.1, hlower.2, (Option.some.inj h).symm⟩)
    next =>
      split at h
      next hupper => exact .inr (.inr ⟨hupper.1, hupper.2, (Option.some.inj h).symm⟩)
      next => cases h

/-- The digit of a hex character's value is the character in lower case (43_codecs.md R175). -/
theorem hexDigit_of_hexChar {c : Word} {v : Nat} (h : HexChar c v) : hexDigit v = hexLower c := by
  have hcase : (0x20 : Word).toNat = 0x20 := rfl
  rw [hexDigit_eq_ofNat, hexCode, hexLower]
  apply BitVec.eq_of_toNat_eq
  rw [BitVec.toNat_ofNat]
  obtain ⟨hlo, hhi, rfl⟩ | ⟨hlo, hhi, rfl⟩ | ⟨hlo, hhi, rfl⟩ := h
  · rw [if_pos (by omega), if_neg (by omega)]
    omega
  · rw [if_neg (by omega), if_neg (by omega)]
    omega
  · rw [if_neg (by omega), if_pos ⟨hlo, hhi⟩, BitVec.toNat_add, hcase]
    omega

/-- The two hex digits' values are the nibbles of the byte they make, the high one first (43_codecs.md R170, R173). -/
theorem nibbles_lo8_pair {h l : Nat} (hh : h < 16) (hl : l < 16) :
    (lo8 (h * 16 + l)).toNat / 16 = h ∧ (lo8 (h * 16 + l)).toNat % 16 = l := by
  rw [lo8_toNat, Nat.mod_eq_of_lt (by omega)]
  omega

theorem hexPairs_hexEncode (b : List Byte) : hexPairs (hexEncode b) = b := by
  induction b with
  | nil => rfl
  | cons x b ih =>
    have hx := x.isLt
    rw [hexEncode_cons, hexPairs, ih, hexVal_hexDigit _ (by omega), hexVal_hexDigit _ (by omega), Option.getD_some,
      Option.getD_some, Nat.div_add_mod', lo8, BitVec.ofNat_toNat, BitVec.setWidth_eq]

theorem hexVal_isSome_of_mem_hexEncode {b : List Byte} {c : Word} (h : c ∈ hexEncode b) : (hexVal c).isSome = true := by
  simp only [hexEncode, List.mem_flatMap, List.mem_cons, List.not_mem_nil, or_false] at h
  obtain ⟨x, -, rfl | rfl⟩ := h
  · rw [hexVal_hexDigit _ (by have := x.isLt; omega), Option.isSome_some]
  · rw [hexVal_hexDigit _ (by omega), Option.isSome_some]

theorem hexDecode_hexEncode (b : List Byte) : hexDecode (hexEncode b) = .ok b := by
  rw [hexDecode_ok (by simp) fun c => hexVal_isSome_of_mem_hexEncode, hexPairs_hexEncode]

/-- The digits of the pairs of a text of hex characters are its characters in lower case. -/
theorem hexEncode_hexPairs (t : List Word) (heven : t.length % 2 = 0) (hhex : ∀ c ∈ t, (hexVal c).isSome = true) :
    hexEncode (hexPairs t) = t.map hexLower := by
  induction t using hexPairs.induct with
  | case1 h l rest ih =>
    obtain ⟨vh, hvh⟩ := Option.isSome_iff_exists.mp (hhex h (by simp))
    obtain ⟨vl, hvl⟩ := Option.isSome_iff_exists.mp (hhex l (by simp))
    have heven' : rest.length % 2 = 0 := by
      rw [List.length_cons, List.length_cons] at heven
      omega
    have hrest := ih heven' fun c hc => hhex c (by simp [hc])
    obtain ⟨hhigh, hlow⟩ := nibbles_lo8_pair (hexVal_lt hvh) (hexVal_lt hvl)
    rw [hexPairs, hvh, hvl, Option.getD_some, Option.getD_some, hexEncode_cons, hhigh, hlow, hrest,
      hexDigit_of_hexChar (hexChar_of_hexVal hvh), hexDigit_of_hexChar (hexChar_of_hexVal hvl), List.map_cons, List.map_cons]
  | case2 t hne =>
    match t with
    | [] => rfl
    | [c] => simp at heven
    | h :: l :: rest => exact absurd rfl (hne h l rest)

/-- Settles O43: byte by byte, and pair by pair. -/
theorem hexRoundTrip : Obligations.HexRoundTrip := by
  unfold Obligations.HexRoundTrip
  refine ⟨hexDecode_hexEncode, fun t b h => ?_⟩
  rcases hexDecode_cases t with ⟨-, herr⟩ | ⟨heven, hhex, hok⟩ | ⟨-, k, -, herr⟩
  · cases herr.symm.trans h
  · cases hok.symm.trans h
    exact hexEncode_hexPairs t heven hhex
  · cases herr.symm.trans h

/-! ### The text round trip -/

theorem lo8_eq_delimiter_iff {c : Word} (h : c.toNat ≤ 255) : lo8 c.toNat = 0xFF ↔ c = 255 := by
  rw [← BitVec.toNat_inj, ← BitVec.toNat_inj, lo8_toNat, Nat.mod_eq_of_lt (by omega)]
  rfl

theorem bytesToText_cons (b : Byte) (s : List Byte) :
    bytesToText (b :: s) = if b = 0xFF then [] else b.setWidth 32 :: bytesToText s := by
  by_cases h : b = 0xFF
  · rw [if_pos h, h]
    rfl
  · rw [if_neg h, bytesToText, List.takeWhile_cons_of_pos (p := (· != 0xFF)) (bne_iff_ne.mpr h), List.map_cons,
      bytesToText]

/-- The text of the bytes of a text ends where the text has its first 255 (43_codecs.md R166). -/
theorem bytesToText_map_lo8 (t : List Word) (h : ∀ c ∈ t, c.toNat ≤ 255) :
    bytesToText (t.map fun c => lo8 c.toNat) = t.takeWhile (fun c => c != 255) := by
  induction t with
  | nil => rfl
  | cons c t ih =>
    obtain ⟨hc, ht⟩ := List.forall_mem_cons.mp h
    have hback : (lo8 c.toNat).setWidth 32 = c := by
      rw [← BitVec.ofNat_toNat]
      exact ofNat_toNat_byte hc
    rw [List.map_cons, bytesToText_cons, ih ht, hback]
    simp only [lo8_eq_delimiter_iff hc, List.takeWhile_cons, bne_iff_ne, ne_eq, ite_not]

/-- Settles O44: a character up to 254 is no 255, so a text of such characters is kept whole. -/
theorem textRoundTrip : Obligations.TextRoundTrip := by
  unfold Obligations.TextRoundTrip
  intro t h
  have hcut := bytesToText_map_lo8 t h
  refine ⟨_, textToBytes_ok h, hcut, fun hall => hcut.trans (List.takeWhile_eq_self_iff.mpr fun c hc => ?_)⟩
  have := hall c hc
  rw [bne_iff_ne]
  rintro rfl
  exact absurd this (by decide)

end Sys2Proof.Machine
end

section
/-! Control (44_control.md): what a step is at the engine's turn and at a host write to CMD or CTRL, what NOP, an illegal word and
the CTRL words do, and when a pending command completes or faults. -/

namespace Sys2Proof.Machine

/-! ### When a pending command faults or completes -/

/-- A command that reads one text finds it unreadable when a byte of it is unwritten. -/
theorem readText_of_unwritten {i : Instr} {p : Latch} {m : Memory}
    (hs : (operandRegions i p).srcs = [textRegion p.srcAddr p.srcLen.toNat]) (h : ¬ SourcesWritten i p m) :
    m.readText p.srcAddr.toNat p.srcLen.toNat = none := by
  rw [sourcesWritten_text hs] at h
  exact Option.eq_none_iff_forall_ne_some.mpr fun t ht => h ⟨t, ht⟩

/-- A command that reads one byte sequence finds it unreadable when a byte of it is unwritten. -/
theorem readBytes_of_unwritten {i : Instr} {p : Latch} {n : Nat} {m : Memory}
    (hs : (operandRegions i p).srcs = [byteRegion p.srcAddr n]) (h : ¬ SourcesWritten i p m) :
    m.readBytes p.srcAddr.toNat n = none := by
  rw [sourcesWritten_bytes hs] at h
  exact Option.eq_none_iff_forall_ne_some.mpr fun b hb => h ⟨b, hb⟩

/-- A text that cannot be read is not empty. -/
theorem length_ne_zero_of_readText_none {m : Memory} {a : Nat} {n : Word} (h : m.readText a n.toNat = none) :
    (n != 0) = true := by
  rw [bne_iff_ne]
  rintro rfl
  cases h

/-- XORM faults at its first source or at its second (44_control.md R182). -/
theorem xormRule_unwritten {p : Latch} {s : State} (hr : (operandRegions .xorm p).ok s.config.memSize = true)
    (h : ¬ SourcesWritten .xorm p s.mem) : xormRule p s = .error (.fault .unwrittenRead) := by
  rw [sourcesWritten_xorm] at h
  simp only [xormRule, checkRegions_bind, memRead_bind, hr, if_true]
  cases ha : s.mem.readBytes p.srcAddr.toNat 16 with
  | none => rfl
  | some a =>
    cases hb : s.mem.readBytes p.auxAddr.toNat 16 with
    | none => rfl
    | some b => exact absurd ⟨⟨a, ha⟩, b, hb⟩ h

/-- The converse of `rule_fault`: with the key and the regions in order, an unwritten source byte is a fault
(44_control.md R182). -/
theorem rule_unwritten {i : Instr} {p : Latch} {s : State} (hi : readsMem i = true)
    (hk : needsKey i = true → s.keyValid = true) (hr : (operandRegions i p).ok s.config.memSize = true)
    (h : ¬ SourcesWritten i p s.mem) : commandRule i p s = .error (.fault .unwrittenRead) := by
  cases i with
  | nop | bkgen | illegal | srst | doneclr | ovrclr | ctrlwr => cases hi
  | xorm => exact xormRule_unwritten hr h
  | bxform =>
    simp only [commandRule, bxformRule, requireKey_bind, checkRegions_bind, memRead_bind, hk rfl, hr,
      readBytes_of_unwritten rfl h, if_true]
  | frame | hexenc | txtdec =>
    simp only [commandRule, frameRule, hexencRule, txtdecRule, checkRegions_bind, memRead_bind, hr,
      readBytes_of_unwritten rfl h, if_true]
  | keyset =>
    have ht := readText_of_unwritten rfl h
    simp only [commandRule, keysetRule, checkRegions_bind, check_bind, cpRead_bind, hr,
      length_ne_zero_of_readText_none ht, ht, if_true]
  | hexdec | txtenc =>
    simp only [commandRule, hexdecRule, txtencRule, checkRegions_bind, cpRead_bind, hr, readText_of_unwritten rfl h, if_true]
  | encrypt | decrypt =>
    simp only [commandRule, encryptRule, decryptRule, requireKey_bind, checkRegions_bind, cpRead_bind, hk rfl, hr,
      readText_of_unwritten rfl h, if_true]

theorem port_of_readsMem {i : Instr} (h : readsMem i = true) : i.port = .cmd := by
  cases i <;> simp [readsMem] at h <;> rfl

/-- Settles O18: the rule faults, and so does the command. -/
theorem unwrittenSourceFaults : Obligations.UnwrittenSourceFaults := by
  unfold Obligations.UnwrittenSourceFaults
  intro i s p hreads hp hkey hok hunwritten
  rw [exec_eq_runCommand (port_of_readsMem hreads), runCommand_fault hp (rule_unwritten hreads hkey hok hunwritten)]

/-- Settles O19: a rule that succeeds or raises an error completes the command, and it faults only on an unwritten source. -/
theorem everyPendingCommandCompletes : Obligations.EveryPendingCommandCompletes := by
  unfold Obligations.EveryPendingCommandCompletes
  intro i s p hi hp hwritten
  rw [exec_eq_runCommand hi]
  cases hrule : commandRule i p s with
  | ok u => exact ⟨_, runCommand_ok hp hrule, rfl, rfl, rfl⟩
  | error stop =>
    cases stop with
    | raise e pos => exact ⟨_, runCommand_raise hp hrule, rfl, rfl, rfl⟩
    | fault f =>
      obtain ⟨_, _, _, hok, hunwritten⟩ := rule_fault hrule
      exact absurd (hwritten hok) hunwritten

/-! ### The engine's turn -/

/-- With no event left the engine moves (log entry 14). -/
theorem step_no_event {s : State} (h : s.events = []) : step s = perform (engineTurn s) := by
  simp [step, nextMove, h]

theorem step_engine_event {s : State} {rest : List Event} (h : s.events = .engine :: rest) :
    step s = perform (engineTurn { s with events := rest }) := by
  simp [step, nextMove, h]

/-- The engine's turn completes the pending command, decoded from the latch (44_control.md R181). -/
theorem perform_engineTurn_pending {s : State} {p : Latch} (h : s.pend = some p) :
    perform (engineTurn s) = exec (decode .cmd p.cmd) s := by
  simp only [engineTurn, h, perform]

/-- An idle engine's turn does nothing (60_exceptions.md R226). -/
theorem perform_engineTurn_idle {s : State} (h : s.pend = none) : perform (engineTurn s) = .next s := by
  simp only [engineTurn, h, perform]

/-- Settles O5: the turn with no event left and the turn that an engine event gives, on a pending and on an idle engine. -/
theorem engineTurnRunsTheLatchedCommand : Obligations.EngineTurnRunsTheLatchedCommand := by
  unfold Obligations.EngineTurnRunsTheLatchedCommand
  refine ⟨fun s p hp => ⟨fun hev => ?_, fun rest hev => ?_⟩, fun s hidle => ⟨fun hev => ?_, fun rest hev => ?_⟩⟩
  · rw [step_no_event hev, perform_engineTurn_pending hp]
  · rw [step_engine_event hev]
    exact perform_engineTurn_pending (s := { s with events := rest }) hp
  · rw [step_no_event hev, perform_engineTurn_idle hidle]
  · rw [step_engine_event hev]
    exact perform_engineTurn_idle (s := { s with events := rest }) hidle

/-- The step from `withCommand` runs the command on the state that accepting it leaves (44_control.md R180, R181). -/
theorem step_withCommand (s : State) (v : Word) : step (s.withCommand v) = exec (decode .cmd v) (s.accept v) := by
  rw [step_engine_event (withCommand_events s v)]
  exact perform_engineTurn_pending (p := s.latchOf v) (accept_pend s v)

/-- Settles O7: the fetch word is the command of `withCommand`. -/
theorem fetchWordIsTheNextCommand : Obligations.FetchWordIsTheNextCommand := by
  unfold Obligations.FetchWordIsTheNextCommand
  intro s nbits w i hdecode
  obtain rfl := Option.some.inj hdecode
  exact step_withCommand s _

/-! ### Host writes to CTRL and CMD -/

/-- A CTRL write as a step (44_control.md R183). -/
theorem step_write_ctrl {s : State} {v : Word} {rest : List Event} (h : s.events = .host (.write 32 0x0008 v) :: rest) :
    step s = exec (decode .ctrl v) { s with events := rest } := step_write_reg (r := .ctrl) h rfl rfl

/-- Settles O6: offset 0x0008 is that of CTRL. -/
theorem ctrlWriteRunsTheDecodedWord : Obligations.CtrlWriteRunsTheDecodedWord := by
  unfold Obligations.CtrlWriteRunsTheDecodedWord
  exact fun s v rest => step_write_ctrl

/-- Settles O8: a CMD write is an acceptance on an idle engine and an overrun on a busy one. -/
theorem cmdWriteIsAcceptedWhenIdle : Obligations.CmdWriteIsAcceptedWhenIdle := by
  unfold Obligations.CmdWriteIsAcceptedWhenIdle
  intro s v rest hev
  rw [step_write_cmd hev]
  refine ⟨fun hidle => ?_, fun hbusy => ?_⟩
  · rw [writeCmd_idle (s := { s with events := rest }) hidle]
    rfl
  · rw [writeCmd_busy (s := { s with events := rest }) hbusy]

/-- The effect of a CTRL write with bit 1 = 0, each flag cleared by its own bit (44_control.md R183). -/
theorem writeCtrl_eq (s : State) (o d e : Bool) :
    writeCtrl s o d e =
      { s with ie := e, done := if d then false else s.done, ovr := if o then false else s.ovr } := by
  cases o <;> cases d <;> simp [writeCtrl]

/-- Settles O11: bit 1 makes the word SRST; without it the other three bits act on their flags. -/
theorem ctrlWriteBits : Obligations.CtrlWriteBits := by
  unfold Obligations.CtrlWriteBits
  intro s v rest hev
  rw [step_write_ctrl hev]
  refine ⟨fun hsrst => ?_, fun hno => ?_⟩
  · rw [decodeCtrl_srst hsrst]
  · rw [exec_decodeCtrl hno, writeCtrl_eq]

/-- Settles O12: each of the three is a CTRL write, DONECLR and OVRCLR with their own bit 1. -/
theorem ctrlWritesComplete : Obligations.CtrlWritesComplete := by
  unfold Obligations.CtrlWritesComplete
  exact fun s o d e => ⟨congrArg Host.Outcome.next (writeCtrl_eq s o true e),
    congrArg Host.Outcome.next (writeCtrl_eq s true d e), congrArg Host.Outcome.next (writeCtrl_eq s o d e)⟩

/-! ### NOP and illegal words -/

theorem exec_nop {s : State} {p : Latch} (hp : s.pend = some p) :
    exec .nop s = .next ({ s with outLen := 0 }.succeed p) := runCommand_ok (rule := nopRule) hp rfl

theorem exec_illegal {s : State} {p : Latch} (hp : s.pend = some p) (w : Word) :
    exec (.illegal w) s = .next (failed p .illegalCommand 0xFFFFFFFF s) :=
  runCommand_raise (rule := illegalRule) hp rfl

/-- Settles O9: NOP's rule only writes OUT_LEN, and the word 0 is decoded to NOP. -/
theorem nopCompletes : Obligations.NopCompletes := by
  unfold Obligations.NopCompletes
  refine ⟨fun s p hp => exec_nop hp, fun s p hp hev hcmd => ?_, rfl⟩
  have hdecode : decode .cmd p.cmd = .nop := by rw [hcmd]; rfl
  have hopc : opcField p.cmd = 0x00 := by rw [hcmd]; rfl
  rw [step_no_event hev, perform_engineTurn_pending hp, hdecode, exec_nop hp, State.succeed, State.complete, hopc]
  rfl

/-- Settles O10: the rule of an illegal word raises ILLEGAL_COMMAND, and the reserved words are the ones decoded to it. -/
theorem illegalCommandCompletes : Obligations.IllegalCommandCompletes := by
  unfold Obligations.IllegalCommandCompletes
  refine ⟨fun s p w hp => exec_illegal hp w, fun s p hp hev hreserved => ?_, rfl⟩
  rw [step_no_event hev, perform_engineTurn_pending hp, (reservedWordsAreIllegalCommands p.cmd).mpr hreserved,
    exec_illegal hp]

end Sys2Proof.Machine
end

section
/-! Exceptions (60_exceptions.md): what a command that ends with an error leaves unchanged. -/

namespace Sys2Proof.Machine

/-- The state an error leaves, with or without a position, is the claims' `failed` (60_exceptions.md R204). -/
theorem exists_raiseError_eq_failed (s : State) (p : Latch) (e : ErrCode) (pos : Option Nat) :
    ∃ w, s.raiseError p e pos = failed p e w s := by
  cases pos with
  | none => exact ⟨_, raiseError_none_eq_failed s p e⟩
  | some k => exact ⟨_, raiseError_some_eq_failed s p e k⟩

/-- Settles O17: a completion whose ERR is not NONE is a raised error, so it stores none of its rule's writes. -/
theorem errorsChangeOnlyCompletionFields : Obligations.ErrorsChangeOnlyCompletionFields := by
  unfold Obligations.ErrorsChangeOnlyCompletionFields
  intro i s t hi h herr
  obtain ⟨p, hp⟩ := exec_command_pending hi h
  rcases exec_command_cases hi hp h with ⟨u, _, rfl⟩ | ⟨e, pos, _, _, rfl⟩
  · exact absurd rfl herr
  · obtain ⟨w, hw⟩ := exists_raiseError_eq_failed s p e pos
    exact ⟨p, w, hp, hw⟩

end Sys2Proof.Machine
end

section
/-! Reset and hazards (70_reset_and_hazards.md): what power-on and soft reset leave, the MEM window while a command is pending, and
a completion that sees the latch and not the live operand registers. -/

namespace Sys2Proof.Machine

/-! ### Power-on reset -/

/-- Settles O58: the registers are closed facts, and the reset MEM lists no byte. -/
theorem resetState : Obligations.ResetState := by
  unfold Obligations.ResetState
  exact ⟨by decide, by decide, rfl, rfl, rfl, rfl, rfl, rfl, rfl, rfl, rfl, by decide, read_nil⟩

/-! ### The window while busy -/

/-- A host read of a MEM word on a busy engine (70_reset_and_hazards.md R240). -/
theorem readWindow_busy {s : State} (h : s.pend ≠ none) (a : Nat) : readWindow s a = .fault .memWhileBusy := by
  rw [readWindow, busy_eq, if_pos (Option.isSome_iff_ne_none.mpr h)]

/-- A host write of a MEM word on a busy engine (70_reset_and_hazards.md R240). -/
theorem writeWindow_busy {s : State} (h : s.pend ≠ none) (a : Nat) (v : Word) : writeWindow s a v = .fault .memWhileBusy := by
  rw [writeWindow, busy_eq, if_pos (Option.isSome_iff_ne_none.mpr h)]

/-- Settles O57: a legal access reaches the window, which faults while busy, whatever the offset. -/
theorem memWindowWhileBusyFaults : Obligations.MemWindowWhileBusyFaults := by
  unfold Obligations.MemWindowWhileBusyFaults
  intro s a v rest hbusy hlow h4 hin
  refine ⟨fun hev => ?_, fun hev => ?_⟩
  · rw [step_read_mem hev h4 hlow hin]
    exact readWindow_busy (s := { s with events := rest }) hbusy _
  · rw [step_write_mem hev h4 hlow hin]
    exact writeWindow_busy (s := { s with events := rest }) hbusy _ _

/-! ### Soft reset -/

/-- The abort of a pending command concerns its destination, if its regions pass (44_control.md R184). -/
theorem abortRegion_pending {s : State} {p : Latch} (hp : s.pend = some p) :
    abortRegion s = if (operandRegions (decode .cmd p.cmd) p).ok s.config.memSize then
      (operandRegions (decode .cmd p.cmd) p).dst else none := by
  rw [abortRegion, hp]
  rfl

theorem memAfterReset_of_no_abort {s : State} (h : abortRegion s = none) : memAfterReset s = s.mem := by
  simp only [memAfterReset, h]

theorem memAfterReset_of_abort {s : State} {d : Region} (h : abortRegion s = some d) :
    memAfterReset s = s.mem.forget d.addr d.size := by
  simp only [memAfterReset, h]

/-- The soft reset leaves the destination of an aborted command unwritten (44_control.md R184). -/
theorem read_memAfterReset_inDestination {s : State} {p : Latch} {x : Nat} (hp : s.pend = some p)
    (hok : (operandRegions (decode .cmd p.cmd) p).ok s.config.memSize = true) (hx : InDestination (decode .cmd p.cmd) p x) :
    (memAfterReset s).read x = none := by
  obtain ⟨d, hd, hin⟩ := hx
  rw [memAfterReset_of_abort (by rw [abortRegion_pending hp, if_pos hok, hd]), read_forget, if_pos hin]

/-- Settles O13: a byte of MEM that the reset changes lies in an aborted destination, and there every byte is forgotten. -/
theorem softResetCompletes : Obligations.SoftResetCompletes := by
  unfold Obligations.SoftResetCompletes
  refine fun s => ⟨softReset s, rfl, rfl, fun hidle x => ?_, fun p hp => ⟨fun hbad x => ?_, fun hok x =>
    ⟨read_memAfterReset_inDestination hp hok, fun hx => ?_⟩⟩⟩
  · by_contra hc
    obtain ⟨_, p, hp, _⟩ := read_memAfterReset_of_changed hc
    cases hidle.symm.trans hp
  · rw [softReset_mem, memAfterReset_of_no_abort (by simp [abortRegion_pending hp, hbad])]
  · by_contra hc
    obtain ⟨_, q, hq, hdst⟩ := read_memAfterReset_of_changed hc
    cases hp.symm.trans hq
    exact hx hdst

/-! ### The live operand registers -/

/-- The state with other values in the five operand registers (10_state.md R28 to R32). -/
def State.withOperands (s : State) (a l x d b : Word) : State :=
  { s with srcAddr := a, srcLen := l, auxAddr := x, dstAddr := d, blkIdx := b }

/-- BLK_IDX after a successful command: BXFORM writes it, every other command leaves the live value `b`. -/
def blkIdxAfter (i : Instr) (b : Word) (u : State) : Word := if i = .bxform then u.blkIdx else b

/-- A function of a computation's result passes to the remainder after its first part. -/
theorem bind_eq_map_bind {α : Type} {x : Checked α} {f f' : α → Checked State} {g : State → State}
    (h : ∀ a, f' a = (f a).map g) : (x >>= f') = (x >>= f).map g := by
  cases x with
  | ok a => exact h a
  | error e => rfl

/-- A rule's checks, reads and writes use the latch: with other operand registers it ends alike, and they keep their values but
for the BLK_IDX of BXFORM (10_state.md R35). -/
theorem rule_withOperands (i : Instr) (p : Latch) (s : State) (a l x d b : Word) :
    commandRule i p (s.withOperands a l x d b) =
      (commandRule i p s).map fun u => u.withOperands a l x d (blkIdxAfter i b u) := by
  cases i with
  | nop | illegal | srst | doneclr | ovrclr | ctrlwr => rfl
  | bkgen => exact bind_eq_map_bind fun _ => rfl
  | xorm | bxform => exact bind_eq_map_bind fun _ => bind_eq_map_bind fun _ => bind_eq_map_bind fun _ => rfl
  | frame | hexenc | txtdec => exact bind_eq_map_bind fun _ => bind_eq_map_bind fun _ => rfl
  | hexdec | txtenc => exact bind_eq_map_bind fun _ => bind_eq_map_bind fun _ => bind_eq_map_bind fun _ => rfl
  | keyset | encrypt =>
    exact bind_eq_map_bind fun _ => bind_eq_map_bind fun _ => bind_eq_map_bind fun _ => bind_eq_map_bind fun _ => rfl
  | decrypt =>
    exact bind_eq_map_bind fun _ => bind_eq_map_bind fun _ => bind_eq_map_bind fun _ => bind_eq_map_bind fun _ =>
      bind_eq_map_bind fun _ => rfl

/-- Settles O49: a command completes as its rule ends; the condition on ERR tells a success from a raised error. -/
theorem completionReadsOnlyTheLatch : Obligations.CompletionReadsOnlyTheLatch := by
  unfold Obligations.CompletionReadsOnlyTheLatch
  intro i s t a l x d b hi h
  rw [exec_eq_runCommand hi] at h ⊢
  obtain ⟨p, hp, hend⟩ := runCommand_next h
  have hp' : (s.withOperands a l x d b).pend = some p := hp
  have hrule := rule_withOperands i p s a l x d b
  rcases hend with ⟨u, hu, rfl⟩ | ⟨e, pos, he, rfl⟩
  · have hblk : (if i = .bxform ∧ (u.succeed p).err = .noError then (u.succeed p).blkIdx else b) = blkIdxAfter i b u := by
      simp [blkIdxAfter]
    rw [hu] at hrule
    rw [hblk]
    exact runCommand_ok hp' hrule
  · have hraised : ¬ (i = .bxform ∧ (s.raiseError p e pos).err = .noError) := fun hc => (rule_raise he).1 hc.2
    rw [he] at hrule
    rw [if_neg hraised]
    exact runCommand_raise hp' hrule

end Sys2Proof.Machine
end
